-- ==== Sys2Proof/Word.lean ====
section
/-! DEFINITION. The sizes of data (spec/00_scope.md R4, R6, R11).  One cell of the operand stack or of data memory is an
unsigned integer of `DATA_WIDTH` bits.  DESIGN CHOICE (log 1): `DATA_WIDTH` is taken unbounded, as R6 allows, so a cell is
a natural number. -/

namespace Sys2Proof

/-- One byte of the code buffer: 8 bits (R4). -/
abbrev Byte := BitVec 8

/-- The encoded word of a two-byte instruction: 16 bits (R4). -/
abbrev Word := BitVec 16

end Sys2Proof
end

