-- ==== Sys2Proof/Config.lean ====
section
/-! DEFINITION. The configuration the source gives the core (spec/00_scope.md R4, R5).
`CODE_MAX`, `STACK_DEPTH` and `PROG_CAP` are taken unbounded (R7, R8, R9; log 2), `DATA_WIDTH` too (R6; log 1); the
hardware leaves no value free (spec/70_reset_and_hazards.md R112), so nothing here is opaque. -/

namespace Sys2Proof

/-- Default of `MEM_SIZE`: "data memory size (positive integer, default 1024)" (R5). -/
def Config.memSizeDefault : Nat := 1024

/-- Width of the operand field B (R4). -/
def Config.operandBits : Nat := 10

end Sys2Proof
end

