-- ==== Sys2Proof/Syntax.lean ====
section
/-! DEFINITION. The instructions: the closed set of four (spec/30_encoding.md R52, spec/10_state.md R19). -/

namespace Sys2Proof

/-- A decoded instruction, one entry of the program store.  The operand of LOAD_CONST is a natural number that
`Instr.wellFormed` bounds by 10 bits; the decoder yields no other.
DESIGN CHOICE (log 9): an executor-level entry may hold a wider operand, as spec/92_eei_decisions.md D18 allows. -/
inductive Instr where
  /-- LOAD_CONST B (R78). -/
  | loadConst (b : Nat)
  /-- LE (R85). -/
  | le
  /-- WRITE_MEM (R83). -/
  | writeMem
  /-- READ_MEM (R81). -/
  | readMem
deriving DecidableEq, Repr

end Sys2Proof
end

