-- ==== Sys2Proof/WellFormed.lean ====
section
/-! DEFINITION. Which instructions the bytecode can carry (spec/10_state.md R19, spec/30_encoding.md R50). -/

namespace Sys2Proof

/-- The operand B is a 10-bit unsigned field: `0 <= B <= 1023` (R50, R78).  The other three have no operand. -/
def Instr.wellFormed : Instr → Bool
  | .loadConst b => decide (b < 2 ^ Config.operandBits)
  | .le => true
  | .writeMem => true
  | .readMem => true

end Sys2Proof
end

