-- ==== Sys2Proof/Decode.lean ====
section
/-! DEFINITION. Bytes to instructions and back (spec/30_encoding.md, spec/40_decoder.md), total on any bytes. -/

namespace Sys2Proof

/-! ### Encoding tables (R4, R45, R46, R52) -/

/-- The A field of LOAD_CONST: 14. -/
def opLoadConst : BitVec 6 := 14#6

/-- The byte of LE: 0x0C. -/
def opLe : Byte := 0x0C#8

/-- The byte of WRITE_MEM: 0x1B. -/
def opWriteMem : Byte := 0x1B#8

/-- The byte of READ_MEM: 0x26. -/
def opReadMem : Byte := 0x26#8

/-- Bytes an instruction takes: 2 for LOAD_CONST, 1 for the others (R47). -/
def Instr.lengthBytes : Instr → Nat
  | .loadConst _ => 2
  | .le => 1
  | .writeMem => 1
  | .readMem => 1

/-! ### The word of a two-byte instruction (R32, R49, R50) -/

/-- `zext_16(lo) | (zext_16(hi) << 8)`, `lo` being the byte at the lower offset (R49). -/
def assembleWord (lo hi : Byte) : Word := lo.setWidth 16 ||| (hi.setWidth 16 <<< 8)

/-- `A = word & 0x3F`, that is `word[5:0]` (R50). -/
def fieldA (w : Word) : BitVec 6 := w.setWidth 6

/-- `B = word >> 6`, that is `word[15:6]` (R50). -/
def fieldB (w : Word) : BitVec 10 := (w >>> 6).setWidth 10

/-! ### Decoding one instruction (R64 to R71) -/

/-- What reading one instruction at the head of the remaining stream gives. -/
inductive Decoded where
  /-- An instruction and the bytes after it (R66, R69). -/
  | instr (i : Instr) (rest : List Byte)
  /-- No byte remains (R65). -/
  | endOfBuffer
  /-- One byte remains and it is no one-byte opcode (R67). -/
  | truncatedStream
  /-- A word whose A field is not 14 (R68). -/
  | unknownOpcode (a : BitVec 6)
deriving DecidableEq, Repr

/-- The one-byte opcode a byte is, compared on all eight bits (R48, R66; spec/90_conflicts.md C4). -/
def oneByteInstr (b : Byte) : Option Instr :=
  if b = opLe then some .le
  else if b = opWriteMem then some .writeMem
  else if b = opReadMem then some .readMem
  else none

/-- The tests of one decode step in their order: end of buffer, one-byte opcode, truncation, A field, LOAD_CONST
(R64, R71). -/
def decodeFirst : List Byte → Decoded
  | [] => .endOfBuffer
  | b0 :: rest =>
    match oneByteInstr b0 with
    | some i => .instr i rest
    | none =>
      match rest with
      | [] => .truncatedStream
      | b1 :: rest' =>
        let w := assembleWord b0 b1
        if fieldA w = opLoadConst then .instr (.loadConst (fieldB w).toNat) rest'
        else .unknownOpcode (fieldA w)

/-- What decoding a whole buffer gives (R74): a program, or a fault at an offset with the instructions before it. -/
inductive ProgramDecode where
  | ok (prog : List Instr)
  | truncatedStream (offset : Nat) (before : List Instr)
  | unknownOpcode (offset : Nat) (a : BitVec 6) (before : List Instr)
deriving DecidableEq, Repr

/-- Decoding from offset `off` with `acc` already decoded.  The first argument bounds the number of instructions; any
bound of at least the number of remaining bytes gives the same answer, since an instruction takes at least one byte. -/
def decodeFrom : Nat → List Byte → Nat → List Instr → ProgramDecode
  | 0, _, _, acc => .ok acc
  | n + 1, bs, off, acc =>
    match decodeFirst bs with
    | .endOfBuffer => .ok acc
    | .instr i rest => decodeFrom n rest (off + i.lengthBytes) (acc ++ [i])
    | .truncatedStream => .truncatedStream off acc
    | .unknownOpcode a => .unknownOpcode off a acc

/-- The Decoder as a function of the whole buffer (R63, R74). -/
def decodeProgram (bs : List Byte) : ProgramDecode := decodeFrom bs.length bs 0 []

/-! ### The reference encoder (R59, R60) -/

/-- `(14 | (operand << 6)) mod 65536`, the operand a two's-complement integer of unbounded width (R60; log 13). -/
def constWord (operand : Int) : Word := opLoadConst.setWidth 16 ||| (BitVec.ofInt 16 operand <<< 6)

/-- The two bytes of LOAD_CONST with that operand, low byte first (R59). -/
def encodeConst (operand : Int) : List Byte :=
  [(constWord operand).setWidth 8, (constWord operand >>> 8).setWidth 8]

/-- The bytes of one instruction (R59). -/
def encode : Instr → List Byte
  | .loadConst b => encodeConst b
  | .le => [opLe]
  | .writeMem => [opWriteMem]
  | .readMem => [opReadMem]

/-- The bytes of a sequence, in order, with nothing between them (R59). -/
def encodeProgram : List Instr → List Byte
  | [] => []
  | i :: p => encode i ++ encodeProgram p

/-! ### Words as spec/opcode_table.json numbers them -/

/-- The low `nbits` bits of `w` in stream order, up to the longest instruction (two bytes): bits 7..0 first (R46). -/
def tableBytes (nbits w : Nat) : List Byte :=
  [BitVec.ofNat 8 (w % 2 ^ nbits), BitVec.ofNat 8 (w % 2 ^ nbits / 256)]

/-- The instruction the decoder reads from a word of the opcode table. -/
def decodeTableWord (nbits w : Nat) : Option Instr :=
  match decodeFirst (tableBytes nbits w) with
  | .instr i _ => some i
  | .endOfBuffer => none
  | .truncatedStream => none
  | .unknownOpcode _ => none

end Sys2Proof
end

