-- ==== Sys2Proof/Machine/State.lean ====
section
/-! DEFINITION. The machine's state (spec/10_state.md), why a step can stop, and the state after reset. -/

namespace Sys2Proof.Machine

/-- `PHASE` (R21): which unit is working, or how the run ended.  Its two-bit numbers are `Phase.code`. -/
inductive Phase where
  | decode
  | execute
  | done
  | fault
deriving DecidableEq, Repr

/-- `FKIND` (R22): the kind of the fault that ended the run.  Its three-bit numbers are `FaultKind.code`; the numbers 6
and 7 are never written, so they have no constructor (spec/93_implementation_defined.md U12). -/
inductive FaultKind where
  | none
  | unknownOpcode
  | truncatedStream
  | stackUnderflow
  | addressOutOfRange
  | unimplementedOpcode
deriving DecidableEq, Repr

/-- Data memory (R20): the cells that are not 0, as (address, cell) pairs in the canonical form `Memory.wf`. -/
abbrev Memory := List (Nat × Nat)

/-- All the state the spec gives the machine.  `SP` and `PROG_LEN` are the lengths of `stack` and `prog`
(`State.sp`, `State.progLen`), which R15 and R19 make the same storage. -/
structure State where
  /-- `CODE` (R18): the bytes the host placed in the code buffer. -/
  code : List Byte
  /-- `CODE_LEN` (R7, R18): the length of the stream, sampled at reset (R105). -/
  codeLen : Nat
  /-- `CFG_CODE_LEN` (R24): written by the host. -/
  cfgCodeLen : Nat
  /-- `CFG_MEM_SIZE` (R24): written by the host. -/
  cfgMemSize : Nat
  /-- `MEM_SIZE` (R5): the number of data cells, sampled at reset (R105). -/
  memSize : Nat
  /-- `CUR` (R16): the decode cursor, a byte offset. -/
  cur : Nat
  /-- `PROG[0 .. PROG_LEN-1]` (R19): the program store. -/
  prog : List Instr
  /-- `IP` (R17): the instruction index, an index into `prog`. -/
  ip : Nat
  /-- `STK[0 .. SP-1]` (R15): the operand stack, bottom first, top last. -/
  stack : List Nat
  /-- `MEM[0 .. MEM_SIZE-1]` (R20): the data memory. -/
  mem : Memory
  /-- `PHASE` (R21). -/
  phase : Phase
  /-- `FKIND` (R22). -/
  fkind : FaultKind
  /-- `FVAL` (R23). -/
  fval : Nat
deriving DecidableEq, Repr

/-- Why a step stops without a next state.  The spec's five faults are not here: each is taken, as a next state in phase
FAULT (R96).  These two say that no step is enabled (R21; log 5). -/
inductive Fault where
  /-- Raised by `step` in phase DONE: the run ended with success, no step is enabled.  Safe: nothing changes. -/
  | runDone
  /-- Raised by `step` in phase FAULT: a fault ended the run, no step is enabled.  Safe: nothing changes. -/
  | runFaulted
deriving DecidableEq, Repr

/-- What the model does not admit. -/
inductive Refusal where
  /-- Raised by an arm of `exec` whose instruction has no meaning yet; no arm raises it now.  Safe. -/
  | notModelled (mnemonic : String)
  /-- Raised by `hostBoot` and `step`: `MEM_SIZE` is not a positive integer (R5, R107, U6; log 6).  Safe. -/
  | memSizeNotPositive
  /-- Raised by `hostBoot` and `step`: fewer than `CODE_LEN` bytes have been placed (R107; log 6).  Safe. -/
  | codeNotLoaded
  /-- Raised by a decode step with `CUR > CODE_LEN`: a byte outside the stream (R72, U5; log 3).  No run reaches it.
  Safe. -/
  | deadCodeByte
  /-- Raised by an execute step with `IP > PROG_LEN`: an entry that holds no value (R19, U5; log 3).  No run reaches it.
  Safe. -/
  | deadProgEntry
deriving DecidableEq, Repr

/-- The machine right after reset (R28).  Of the host's part R28 gives `CFG_MEM_SIZE` its default and leaves the code to
the host; here no host has loaded any.
DESIGN CHOICE (log 7): the code buffer is empty and `CFG_CODE_LEN`, so `CODE_LEN`, is 0. -/
def State.reset : State where
  code := []
  codeLen := 0
  cfgCodeLen := 0
  cfgMemSize := Config.memSizeDefault
  memSize := Config.memSizeDefault
  cur := 0
  prog := []
  ip := 0
  stack := []
  mem := []
  phase := .decode
  fkind := .none
  fval := 0

end Sys2Proof.Machine
end

