-- ==== Sys2Proof/Machine/Ops.lean ====
section
/-! DEFINITION. The operations that every step is made of: data memory, stack, counters, fault entry, phase changes,
reset (spec/00_scope.md R12, spec/20_memory.md, spec/60_exceptions.md R96, spec/70_reset_and_hazards.md R104). -/

namespace Sys2Proof.Machine

/-! ### Data memory (R20, R31, R36, R38) -/

/-- What an address that is not listed reads as: the reset contents, 0 (R28). -/
def Memory.unlisted : Nat := 0

/-- `MemRead(addr, 1)`: one whole cell, no side effect (R36, R37). -/
def Memory.read : Memory → Nat → Nat
  | [], _ => Memory.unlisted
  | (k, v) :: m, a => if k = a then v else Memory.read m a

/-- The memory with address `a` unlisted. -/
def Memory.erase (m : Memory) (a : Nat) : Memory := m.filter fun c => decide (c.1 ≠ a)

/-- The memory with `(a, v)` listed before the first greater address. -/
def Memory.insert : Memory → Nat → Nat → Memory
  | [], a, v => [(a, v)]
  | (k, w) :: m, a, v => if a < k then (a, v) :: (k, w) :: m else (k, w) :: Memory.insert m a v

/-- `MemWrite(addr, 1, v)`: one whole cell, every other cell unchanged (R36, R37). -/
def Memory.write (m : Memory) (a : Nat) (v : Nat) : Memory :=
  if v = Memory.unlisted then m.erase a else (m.erase a).insert a v

/-- The canonical form: addresses strictly rising, no entry equal to what an unlisted address reads as. -/
abbrev Memory.wf (m : Memory) : Prop :=
  m.Pairwise (fun c d => c.1 < d.1) ∧ ∀ c ∈ m, c.2 ≠ Memory.unlisted

/-! ### Views -/

/-- `SP`, the number of items on the stack (R15). -/
def State.sp (s : State) : Nat := s.stack.length

/-- `PROG_LEN`, the number of live entries of the program store (R19). -/
def State.progLen (s : State) : Nat := s.prog.length

/-- The run is over exactly when `PHASE` is DONE or FAULT (R109). -/
def State.terminal (s : State) : Bool :=
  match s.phase with
  | .decode => false
  | .execute => false
  | .done => true
  | .fault => true

/-- What makes the sampled configuration illegal, if anything does (R107; U6, U7). -/
def State.configProblem (s : State) : Option Refusal :=
  if s.memSize = 0 then some .memSizeNotPositive
  else if s.code.length < s.codeLen then some .codeNotLoaded
  else none

/-! ### Changes of state made by the execute phase -/

/-- `push(v)` (R12). -/
def State.push (s : State) (v : Nat) : State := { s with stack := s.stack ++ [v] }

/-- `STK[SP-1] <- v`: the top item replaced, the depth unchanged (R81). -/
def State.setTop (s : State) (v : Nat) : State := { s with stack := s.stack.dropLast ++ [v] }

/-- `SP <- SP - 2` (R83). -/
def State.dropTwo (s : State) : State := { s with stack := s.stack.take (s.sp - 2) }

/-- `MEM[a] <- v` (R12, R83). -/
def State.storeCell (s : State) (a : Nat) (v : Nat) : State := { s with mem := s.mem.write a v }

/-- `IP <- IP + 1`, what every instruction that completes does (R17, R75). -/
def State.advance (s : State) : State := { s with ip := s.ip + 1 }

/-- `PHASE <- DONE` (R76). -/
def State.endRun (s : State) : State := { s with phase := .done }

/-! ### Changes of state made by the decode phase -/

/-- `append(i)` and the advance of `CUR` over the instruction's bytes (R64, R66, R69). -/
def State.emit (s : State) (i : Instr) : State :=
  { s with prog := s.prog ++ [i], cur := s.cur + i.lengthBytes }

/-- `PHASE <- EXECUTE` (R65). -/
def State.beginExecute (s : State) : State := { s with phase := .execute }

/-! ### Fault entry and reset

There is no return from a fault (R98): a reset is the only way out of phase FAULT (R104). -/

/-- Fault entry, the meaning of `raise K(info)` (R96): the kind, the information, the phase, and nothing else. -/
def State.raise (s : State) (k : FaultKind) (info : Nat) : State :=
  { s with phase := .fault, fkind := k, fval := info }

/-- A reset, in any phase (R104): every value of R28; the configuration is sampled (R105); the code and the configuration
registers are the host's and stay. -/
def State.applyReset (s : State) : State :=
  { State.reset with
    code := s.code, cfgCodeLen := s.cfgCodeLen, cfgMemSize := s.cfgMemSize,
    codeLen := s.cfgCodeLen, memSize := s.cfgMemSize }

end Sys2Proof.Machine
end

