-- ==== Sys2Proof/Machine/Operands.lean ====
section
/-! DEFINITION. Where instructions find their operands (spec/42_memory_access.md): the top one or two stack items.  The
third operand form, LOAD_CONST's immediate, is the instruction's own field (R78). -/

namespace Sys2Proof.Machine

/-- `peek(k) = STK[SP - 1 - k]`, none where the stack holds too few items (R12). -/
def State.peek (s : State) (k : Nat) : Option Nat :=
  if k < s.sp then s.stack[s.sp - 1 - k]? else none

/-- READ_MEM's operand: the address on top (R81); none is the underflow of R82. -/
def State.loadOperand (s : State) : Option Nat := s.peek 0

/-- WRITE_MEM's operands (address, value): the value on top, the address below it (R83); none is the underflow of R84. -/
def State.storeOperands (s : State) : Option (Nat × Nat) :=
  match s.peek 1, s.peek 0 with
  | some addr, some value => some (addr, value)
  | some _, none => none
  | none, _ => none

/-- The range check of a data address: `addr` in `[0, MEM_SIZE)` (R38, R82, R84). -/
def State.inRange (s : State) (addr : Nat) : Bool := decide (addr < s.memSize)

end Sys2Proof.Machine
end

