-- ==== Sys2Proof/Machine/Constant.lean ====
section
/-! DEFINITION. LOAD_CONST (spec/41_load_const.md). -/

namespace Sys2Proof.Machine

/-- LOAD_CONST B: push B; no fault (R78). -/
def execLoadConst (b : Nat) (s : State) : Host.Outcome State Fault Refusal :=
  .next (s.push b).advance

end Sys2Proof.Machine
end

