-- ==== Sys2Proof/Machine/MemoryAccess.lean ====
section
/-! DEFINITION. READ_MEM and WRITE_MEM (spec/42_memory_access.md). -/

namespace Sys2Proof.Machine

/-- READ_MEM: the address on top replaced by its cell (R81); depth, then address, are checked first (R82). -/
def execReadMem (s : State) : Host.Outcome State Fault Refusal :=
  match s.loadOperand with
  | none => .next (s.raise .stackUnderflow 0)
  | some addr =>
    if s.inRange addr then .next (s.setTop (s.mem.read addr)).advance
    else .next (s.raise .addressOutOfRange addr)

/-- WRITE_MEM: the top stored at the address below it, both popped (R83); depth, then address, are checked first
(R84). -/
def execWriteMem (s : State) : Host.Outcome State Fault Refusal :=
  match s.storeOperands with
  | none => .next (s.raise .stackUnderflow 0)
  | some (addr, value) =>
    if s.inRange addr then .next (s.storeCell addr value).dropTwo.advance
    else .next (s.raise .addressOutOfRange addr)

end Sys2Proof.Machine
end

