-- ==== Sys2Proof/Machine/Unimplemented.lean ====
section
/-! DEFINITION. LE (spec/43_le.md). -/

namespace Sys2Proof.Machine

/-- LE always raises UnimplementedOpcode, whatever the stack holds (R85); what it would compute is not in the source and
has no place in the model (R86). -/
def execLe (s : State) : Host.Outcome State Fault Refusal :=
  .next (s.raise .unimplementedOpcode 0)

end Sys2Proof.Machine
end

