-- ==== Sys2Proof/Machine/Dispatch.lean ====
section
/-! DEFINITION. One arm per instruction (spec/41_load_const.md R75). -/

namespace Sys2Proof.Machine

def exec (i : Instr) (s : State) : Host.Outcome State Fault Refusal :=
  match i with
  | .loadConst b => Sys2Proof.Machine.execLoadConst b s
  | .le => Sys2Proof.Machine.execLe s
  | .writeMem => Sys2Proof.Machine.execWriteMem s
  | .readMem => Sys2Proof.Machine.execReadMem s

end Sys2Proof.Machine
end

