-- ==== Sys2Proof/Machine/Fetch.lean ====
section
/-! DEFINITION. How the two phases fetch: the decode step over the code buffer (spec/40_decoder.md R64), the program-store
entry of the execute step (spec/41_load_const.md R75), and a program placed for a test to run. -/

namespace Sys2Proof.Machine

/-- The bytes of the stream from `CUR` on: `CODE[CUR .. CODE_LEN-1]`; bytes at `CODE_LEN` and above are never read
(R72). -/
def State.liveBytes (s : State) : List Byte := (s.code.take s.codeLen).drop s.cur

/-- One decode step (R64).  The end of the buffer is `CUR = CODE_LEN` (R65); a cursor beyond it has no byte to read
(log 3). -/
def decodeStep (s : State) : Host.Outcome State Fault Refusal :=
  if s.cur = s.codeLen then .next s.beginExecute
  else
    match decodeFirst s.liveBytes with
    | .instr i _ => .next (s.emit i)
    | .endOfBuffer => .refused .deadCodeByte
    | .truncatedStream => .next (s.raise .truncatedStream 0)
    | .unknownOpcode a => .next (s.raise .unknownOpcode a.toNat)

/-- The program is exhausted: `IP = PROG_LEN` (R76). -/
def State.programDone (s : State) : Bool := decide (s.ip = s.progLen)

/-- `PROG[IP]` (R75); none at an index that holds no live entry (R19). -/
def State.fetchEntry (s : State) : Option Instr := s.prog[s.ip]?

/-- The state as a host's load of the `n`-byte instruction `i`, whose bytes are `bs`, and the decode phase over it leave
the code buffer and the program store (log 8): the next step executes `i`. -/
def State.placeDecoded (s : State) (i : Instr) (bs : List Byte) : State :=
  { s with
    code := bs, codeLen := bs.length, cfgCodeLen := bs.length, cur := bs.length,
    prog := [i], ip := 0, phase := .execute }

/-- The state with bytes that are no instruction at the head of the stream: the next step decodes them and raises the
decode fault (log 8). -/
def State.placeUndecoded (s : State) (bs : List Byte) : State :=
  { s with
    code := bs, codeLen := bs.length, cfgCodeLen := bs.length, cur := 0,
    prog := [], ip := 0, phase := .decode }

/-- A word of the opcode table placed where the next step runs it (log 8). -/
def State.placeTableWord (s : State) (nbits w : Nat) : State :=
  match decodeTableWord nbits w with
  | some i => s.placeDecoded i ((tableBytes nbits w).take i.lengthBytes)
  | none => s.placeUndecoded (tableBytes nbits w)

end Sys2Proof.Machine
end

