-- ==== Sys2Proof/Machine/Step.lean ====
section
/-! DEFINITION. One step of the machine: a decode step or an execute step by `PHASE`; none in a terminal phase
(spec/10_state.md R21, spec/40_decoder.md R64, spec/41_load_const.md R75). -/

namespace Sys2Proof.Machine

/-- One execute step (R75): the end of the run (R76), or the one instruction at `IP`. -/
def executeStep (s : State) : Host.Outcome State Fault Refusal :=
  if s.programDone then .next s.endRun
  else
    match s.fetchEntry with
    | some i => exec i s
    | none => .refused .deadProgEntry

/-- One step.  A run under an illegal configuration is refused (R107, U6; log 6); in DONE and FAULT no step is enabled
(R21; log 5). -/
def step (s : State) : Host.Outcome State Fault Refusal :=
  match s.phase with
  | .decode =>
    match s.configProblem with
    | some r => .refused r
    | none => decodeStep s
  | .execute =>
    match s.configProblem with
    | some r => .refused r
    | none => executeStep s
  | .done => .fault .runDone
  | .fault => .fault .runFaulted

/-- The state in which the very next step runs the instruction of a word of the opcode table (log 8). -/
def State.withFetchWord (s : State) (nbits w : Nat) : State := s.placeTableWord nbits w

end Sys2Proof.Machine
end

