-- ==== Sys2Proof/Machine/Flags.lean ====
section
/-! DEFINITION. The hardware has no flags, condition codes or predicates (spec/10_state.md R25).  What it has is status
registers; here are the numbers they hold (R21, R22). -/

namespace Sys2Proof.Machine

/-- `PHASE` as its two-bit number (R21). -/
def Phase.code : Phase → BitVec 2
  | .decode => 0
  | .execute => 1
  | .done => 2
  | .fault => 3

/-- `FKIND` as its three-bit number (R22, R87). -/
def FaultKind.code : FaultKind → BitVec 3
  | .none => 0
  | .unknownOpcode => 1
  | .truncatedStream => 2
  | .stackUnderflow => 3
  | .addressOutOfRange => 4
  | .unimplementedOpcode => 5

end Sys2Proof.Machine
end

