-- ==== Sys2Proof/Machine/HostPort.lean ====
section
/-! DEFINITION. What the host does to the core and reads from it (spec/70_reset_and_hazards.md R104 to R111,
spec/10_state.md R24). -/

namespace Sys2Proof.Machine

/-- A write of `CFG_MEM_SIZE`: the register alone; the core ignores it until the next reset (R24, R105).  When the host
may make it is `hostWriteCfgMemSize`. -/
def State.writeCfgMemSize (s : State) (n : Nat) : State := { s with cfgMemSize := n }

/-- A write of `CFG_CODE_LEN`: the register alone; the core ignores it until the next reset (R24, R105).  When the host
may make it is `hostWriteCfgCodeLen`. -/
def State.writeCfgCodeLen (s : State) (n : Nat) : State := { s with cfgCodeLen := n }

/-- The host places bytes in the code buffer.  A part of `hostBoot` only: during a run the host has no such move (R111;
log 11). -/
def State.placeCode (s : State) (bytes : List Byte) : State := { s with code := bytes }

/-- The host's write of `CFG_MEM_SIZE` between runs, in a terminal phase; none during a run, where its one move is reset
(R13, R111; log 11). -/
def hostWriteCfgMemSize (s : State) (n : Nat) : Option State :=
  if s.terminal then some (s.writeCfgMemSize n) else none

/-- The host's write of `CFG_CODE_LEN` between runs, in a terminal phase; none during a run, where its one move is reset
(R13, R111; log 11). -/
def hostWriteCfgCodeLen (s : State) (n : Nat) : Option State :=
  if s.terminal then some (s.writeCfgCodeLen n) else none

/-- A new run (R104 to R107): the host resets the core in any state, places the code, writes the configuration and
releases reset.  An illegal configuration is refused (R107, U6; log 6). -/
def hostBoot (bytes : List Byte) (codeLen memSize : Nat) (s : State) : Host.Outcome State Fault Refusal :=
  let t := (((s.placeCode bytes).writeCfgCodeLen codeLen).writeCfgMemSize memSize).applyReset
  match t.configProblem with
  | some r => .refused r
  | none => .next t

/-- The status and counters a host reads (R110), as numbers. -/
structure Status where
  phase : BitVec 2
  fkind : BitVec 3
  fval : Nat
  cur : Nat
  ip : Nat
  sp : Nat
deriving DecidableEq, Repr

/-- The host's read of the status registers and counters: in a terminal phase only (R110; log 14). -/
def hostStatus (s : State) : Option Status :=
  if s.terminal then
    some { phase := s.phase.code, fkind := s.fkind.code, fval := s.fval, cur := s.cur, ip := s.ip, sp := s.sp }
  else none

/-- The host's read of `MEM[a]`, `a < MEM_SIZE`, in a terminal phase (R110; log 14). -/
def hostReadMem (s : State) (a : Nat) : Option Nat :=
  if s.terminal && decide (a < s.memSize) then some (s.mem.read a) else none

/-- The host's read of `STK[i]`, `i < SP`, in a terminal phase (R110; log 14). -/
def hostReadStack (s : State) (i : Nat) : Option Nat :=
  if s.terminal then s.stack[i]? else none

/-- The result of a successful run (R109): the whole data memory and the stack, bottom first. -/
structure RunResult where
  memory : List Nat
  stack : List Nat
deriving DecidableEq, Repr

/-- A result exists in phase DONE only (R98, R109). -/
def runResult (s : State) : Option RunResult :=
  match s.phase with
  | .done => some { memory := (List.range s.memSize).map s.mem.read, stack := s.stack }
  | .decode => none
  | .execute => none
  | .fault => none

end Sys2Proof.Machine
end

