-- ==== Sys2Proof/Safety.lean ====
section
/-! DEFINITION. The terms that claims about runs use: the states a run can reach, the invariant of every run
(spec/10_state.md section 8), and the Executor as a function of the program (spec/INDEX.md, "the whole machine as two
functions"). -/

namespace Sys2Proof.Machine

/-- `n` steps, stopping where no step has a next state.  It is `Host.Core.run` of the core (`runFor_eq_core_run`). -/
def runFor : Nat → State → Host.Outcome State Fault Refusal
  | 0, s => .next s
  | n + 1, s =>
    match step s with
    | .next t => runFor n t
    | .fault r => .fault r
    | .refused r => .refused r

/-- The states of every run: from any legal boot (a reset, in any phase: R104), by steps, and by the host's writes of its
configuration registers between runs; during a run the host has no move but reset (R111). -/
inductive Reachable : State → Prop where
  | booted {bytes : List Byte} {codeLen memSize : Nat} {before s : State} :
      hostBoot bytes codeLen memSize before = .next s → Reachable s
  | stepped {s t : State} : Reachable s → step s = .next t → Reachable t
  | wroteMemSize {s t : State} (n : Nat) : Reachable s → hostWriteCfgMemSize s n = some t → Reachable t
  | wroteCodeLen {s t : State} (n : Nat) : Reachable s → hostWriteCfgCodeLen s n = some t → Reachable t

/-- The sampled configuration is one the spec admits (R107): a positive `MEM_SIZE`, and `CODE_LEN` bytes placed. -/
abbrev State.ConfigLegal (s : State) : Prop := 0 < s.memSize ∧ s.codeLen ≤ s.code.length

/-- The three bytes that are one-byte opcodes, as R48 writes them. -/
abbrev OneByteOpcode (b : Byte) : Prop := b = 0x0C#8 ∨ b = 0x1B#8 ∨ b = 0x26#8

/-- The instruction raises `SP` (R30): LOAD_CONST only. -/
def pushes : Instr → Bool
  | .loadConst _ => true
  | .le => false
  | .writeMem => false
  | .readMem => false

/-- What holds in every state of every run. -/
structure State.Inv (s : State) : Prop where
  /-- The configuration is legal (R107). -/
  memSizePos : 0 < s.memSize
  codeLoaded : s.codeLen ≤ s.code.length
  /-- The counters stay in range (R16, R17). -/
  curInStream : s.cur ≤ s.codeLen
  ipInProgram : s.ip ≤ s.progLen
  /-- The program store is the decoding of exactly the bytes consumed (R62, R65). -/
  progIsConsumed : encodeProgram s.prog = s.code.take s.cur
  progWellFormed : ∀ i ∈ s.prog, i.wellFormed = true
  /-- Execution starts after the whole buffer is decoded and ends after the whole program (R63, R72, R76). -/
  decodedAll : s.phase = .execute ∨ s.phase = .done → s.cur = s.codeLen
  executedAll : s.phase = .done → s.ip = s.progLen
  /-- No LE has been passed (R85). -/
  noLePassed : Instr.le ∉ s.prog.take s.ip
  /-- Decoding executes nothing, and before the first instruction completes stack and memory are as at reset (R73). -/
  nothingExecuted : s.phase = .decode ∨ s.fkind = .unknownOpcode ∨ s.fkind = .truncatedStream → s.ip = 0
  untouched : s.ip = 0 → s.stack = [] ∧ s.mem = []
  /-- An execute fault leaves a wholly decoded buffer and points at its instruction (R87). -/
  executeFault : s.fkind = .stackUnderflow ∨ s.fkind = .addressOutOfRange ∨ s.fkind = .unimplementedOpcode →
    s.cur = s.codeLen ∧ s.ip < s.progLen
  /-- At most one item per LOAD_CONST executed (R30). -/
  depth : s.sp ≤ (s.prog.take s.ip).countP pushes
  /-- Every value is below 1024 (R29). -/
  stackSmall : ∀ v ∈ s.stack, v ≤ 1023
  memSmall : ∀ c ∈ s.mem, c.2 ≤ 1023
  /-- Memory is in its canonical form and holds existing cells only (R38). -/
  memWf : s.mem.wf
  memInRange : ∀ c ∈ s.mem, c.1 < s.memSize
  /-- `FKIND != 0` exactly when `PHASE = FAULT` (R22), and `FVAL` is written by fault entry only (R23). -/
  faultKind : s.fkind ≠ .none ↔ s.phase = .fault
  noFaultValue : s.phase ≠ .fault → s.fval = 0

/-! ### The Executor as a function of the program

Written over a stack with its top first and a memory that is a function, so that it can be held beside the source's table
of handlers line by line.  The machine is claimed to agree with it. -/

/-- How executing a program ends: with the final stack (top first) and memory, or with a fault of a kind, at an
instruction index, with the value recorded. -/
inductive RefEnd where
  | done (stack : List Nat) (mem : Nat → Nat)
  | fault (kind : FaultKind) (index value : Nat)

/-- Execute the rest of a program from instruction index `n` (R75 to R85). -/
def refExec (size : Nat) : List Instr → Nat → List Nat → (Nat → Nat) → RefEnd
  | [], _, st, m => .done st m
  | .loadConst b :: p, n, st, m => refExec size p (n + 1) (b :: st) m
  | .le :: _, n, _, _ => .fault .unimplementedOpcode n 0
  | .readMem :: _, n, [], _ => .fault .stackUnderflow n 0
  | .readMem :: p, n, a :: st, m =>
    if a < size then refExec size p (n + 1) (m a :: st) m else .fault .addressOutOfRange n a
  | .writeMem :: _, n, [], _ => .fault .stackUnderflow n 0
  | .writeMem :: _, n, [_], _ => .fault .stackUnderflow n 0
  | .writeMem :: p, n, v :: a :: st, m =>
    if a < size then refExec size p (n + 1) st (fun x => if x = a then v else m x)
    else .fault .addressOutOfRange n a

end Sys2Proof.Machine
end

