-- ==== Sys2Proof/Certificates/Slice0/Obligations.lean ====
section
/-! DEFINITION. The statements for the provers, from the numbered rules of spec/. -/

open Sys2Proof Sys2Proof.Machine

/-! ### Encoding and decoding -/

/-- Words written out from the spec's encodings decode to what they stand for (30_encoding.md R45, R46; the words are
S1, S2, V3, V8 of 95_test_vectors.md). -/
def Obligations.SpecWordsDecode : Prop :=
  decodeFirst [0x4E, 0x01] = .instr (.loadConst 5) [] ∧
  decodeFirst [0xCE, 0xFF] = .instr (.loadConst 1023) [] ∧
  decodeFirst [0x0E, 0x0C] = .instr (.loadConst 48) [] ∧
  decodeFirst [0x0C] = .instr .le [] ∧
  decodeFirst [0x1B] = .instr .writeMem [] ∧
  decodeFirst [0x26] = .instr .readMem [] ∧
  decodeTableWord 16 0x014E = some (.loadConst 5) ∧
  decodeTableWord 8 0x1B = some .writeMem

/-- R53: the 256 first bytes, what the decoder does with each class, and how many each class has. -/
def Obligations.FirstByteClassification : Prop :=
  (∀ rest, decodeFirst (0x0C#8 :: rest) = .instr .le rest ∧
    decodeFirst (0x1B#8 :: rest) = .instr .writeMem rest ∧
    decodeFirst (0x26#8 :: rest) = .instr .readMem rest) ∧
  (∀ b0 : Byte, (b0 = 0x0E#8 ∨ b0 = 0x4E#8 ∨ b0 = 0x8E#8 ∨ b0 = 0xCE#8) →
    decodeFirst [b0] = .truncatedStream ∧
    ∀ (b1 : Byte) (rest : List Byte),
      decodeFirst (b0 :: b1 :: rest) = .instr (.loadConst (b1.toNat * 4 + b0.toNat / 64)) rest) ∧
  (∀ b0 : Byte, ¬ OneByteOpcode b0 → ¬ (b0 = 0x0E#8 ∨ b0 = 0x4E#8 ∨ b0 = 0x8E#8 ∨ b0 = 0xCE#8) →
    b0.toNat % 64 ≠ 14 ∧
    decodeFirst [b0] = .truncatedStream ∧
    ∀ (b1 : Byte) (rest : List Byte),
      decodeFirst (b0 :: b1 :: rest) = .unknownOpcode (BitVec.ofNat 6 (b0.toNat % 64))) ∧
  ((List.range 256).countP fun n => decide (decodeFirst [BitVec.ofNat 8 n] ≠ .truncatedStream)) = 3 ∧
  ((List.range 256).countP fun n => decide (decodeFirst [BitVec.ofNat 8 n] = .truncatedStream ∧
    decodeFirst [BitVec.ofNat 8 n, 0#8] = .instr (.loadConst (n / 64)) [])) = 4 ∧
  ((List.range 256).countP fun n => decide (decodeFirst [BitVec.ofNat 8 n, 0#8] =
    .unknownOpcode (BitVec.ofNat 6 (n % 64)))) = 249

/-- R55: the nine bytes that only look like one-byte opcodes start a word whose A field is not 14. -/
def Obligations.LookAlikeBytesAreUnknown : Prop :=
  ∀ (b1 : Byte) (rest : List Byte),
    (∀ b0 : Byte, b0 = 0x4C#8 ∨ b0 = 0x8C#8 ∨ b0 = 0xCC#8 →
      decodeFirst (b0 :: b1 :: rest) = .unknownOpcode 12#6) ∧
    (∀ b0 : Byte, b0 = 0x5B#8 ∨ b0 = 0x9B#8 ∨ b0 = 0xDB#8 →
      decodeFirst (b0 :: b1 :: rest) = .unknownOpcode 27#6) ∧
    (∀ b0 : Byte, b0 = 0x66#8 ∨ b0 = 0xA6#8 ∨ b0 = 0xE6#8 →
      decodeFirst (b0 :: b1 :: rest) = .unknownOpcode 38#6)

/-- R51: the fields in terms of the two bytes; A depends on the first byte only. -/
def Obligations.WordFieldsFromBytes : Prop :=
  ∀ lo hi : Byte,
    fieldA (assembleWord lo hi) = lo.extractLsb' 0 6 ∧
    fieldB (assembleWord lo hi) = hi ++ lo.extractLsb' 6 2 ∧
    (fieldB (assembleWord lo hi)).toNat = hi.toNat * 4 + lo.toNat / 64

/-- Decoding the encoding of any well-formed instruction, whatever follows it in the stream, gives it back and leaves
what follows. -/
def Obligations.DecodeOfEncodeIsIdentity : Prop :=
  ∀ (i : Instr) (rest : List Byte), i.wellFormed = true → decodeFirst (encode i ++ rest) = .instr i rest

/-- Whatever instruction the decoder reads is well-formed, and the bytes it took are exactly that instruction's
encoding: each instruction has one encoding. -/
def Obligations.EncodeOfDecodeIsIdentity : Prop :=
  ∀ (bs rest : List Byte) (i : Instr), decodeFirst bs = .instr i rest → i.wellFormed = true ∧ bs = encode i ++ rest

/-- R62: encoder and decoder are inverses on whole sequences, in both directions, and for operands outside [0, 1023] the
round trip returns the operand modulo 1024. -/
def Obligations.ProgramRoundTrip : Prop :=
  (∀ p : List Instr, (∀ i ∈ p, i.wellFormed = true) → decodeProgram (encodeProgram p) = .ok p) ∧
  (∀ (bs : List Byte) (p : List Instr), decodeProgram bs = .ok p → encodeProgram p = bs) ∧
  (∀ operand : Int, decodeProgram (encodeConst operand) = .ok [.loadConst (operand % 1024).toNat])

/-- The reference encoder on any integer operand: the word, the encoding of the operand modulo 1024, the low six bits, and
what the decoder recovers.  The truncation, and the two's-complement reading of a negative operand, are a choice, not the
source's: R60 marks the first as decision D12 and the second as general knowledge G1 (log 13, PRESUMED). -/
def Obligations.EncoderTruncatesOperands : Prop :=
  (∀ operand : Int,
    ((constWord operand).toNat : Int) = (operand * 64 + 14) % 65536 ∧
    encodeConst operand = encode (.loadConst (operand % 1024).toNat) ∧
    (constWord operand).toNat % 64 = 14 ∧
    ∀ rest, decodeFirst (encodeConst operand ++ rest) = .instr (.loadConst (operand % 1024).toNat) rest) ∧
  encodeConst 1029 = encode (.loadConst 5) ∧
  encodeConst 5000 = encode (.loadConst 904) ∧
  encodeConst (-1) = encode (.loadConst 1023)

/-- R57: the first bytes of the two formats never coincide, whatever the operand; every byte sequence has at most one
parse; the second byte of a LOAD_CONST may be a one-byte opcode's value, for the operands named, and is not classified. -/
def Obligations.FormatsNeverCollide : Prop :=
  (∀ operand : Int, ∃ b0 b1 : Byte, encodeConst operand = [b0, b1] ∧ b0.toNat % 64 = 14 ∧ ¬ OneByteOpcode b0) ∧
  (∀ p q : List Instr, (∀ i ∈ p, i.wellFormed = true) → (∀ i ∈ q, i.wellFormed = true) →
    encodeProgram p = encodeProgram q → p = q) ∧
  (∀ b : Nat, b ≤ 1023 → ∃ b0 b1 : Byte, encode (.loadConst b) = [b0, b1] ∧
    (b1 = 0x0C#8 ↔ 48 ≤ b ∧ b ≤ 51) ∧ (b1 = 0x1B#8 ↔ 108 ≤ b ∧ b ≤ 111) ∧
    (b1 = 0x26#8 ↔ 152 ≤ b ∧ b ≤ 155) ∧
    ∀ rest, decodeFirst (b0 :: b1 :: rest) = .instr (.loadConst b) rest)

/-! ### The decode step -/

/-- R66: a one-byte opcode, the last byte of the buffer or not, is appended and `CUR` moves by 1; nothing else changes
and the byte after it plays no part. -/
def Obligations.DecodeStepOneByteOpcode : Prop :=
  ∀ (s : State) (b : Byte) (i : Instr), s.phase = .decode → s.ConfigLegal → s.cur < s.codeLen →
    s.code[s.cur]? = some b →
    (b = 0x0C#8 ∧ i = .le ∨ b = 0x1B#8 ∧ i = .writeMem ∨ b = 0x26#8 ∧ i = .readMem) →
    step s = .next { s with prog := s.prog ++ [i], cur := s.cur + 1 }

/-- R67: a last byte that is no one-byte opcode raises TruncatedStream, whatever its value; `CUR` keeps its offset. -/
def Obligations.DecodeStepTruncatedWord : Prop :=
  ∀ (s : State) (b : Byte), s.phase = .decode → s.ConfigLegal → s.cur + 1 = s.codeLen →
    s.code[s.cur]? = some b → ¬ OneByteOpcode b →
    step s = .next { s with phase := .fault, fkind := .truncatedStream, fval := 0 }

/-- R68: a word whose A field is not 14 raises UnknownOpcode with A in `FVAL`; `CUR` keeps its offset. -/
def Obligations.DecodeStepUnknownWord : Prop :=
  ∀ (s : State) (lo hi : Byte), s.phase = .decode → s.ConfigLegal → s.cur + 2 ≤ s.codeLen →
    s.code[s.cur]? = some lo → s.code[s.cur + 1]? = some hi → ¬ OneByteOpcode lo →
    (lo.toNat + 256 * hi.toNat) % 64 ≠ 14 →
    step s = .next { s with
      phase := .fault, fkind := .unknownOpcode, fval := (lo.toNat + 256 * hi.toNat) % 64 }

/-- R69: a word whose A field is 14 is appended as LOAD_CONST with `B = word >> 6` and `CUR` moves by 2, whatever the
second byte; every 10-bit B arises. -/
def Obligations.DecodeStepLoadConst : Prop :=
  (∀ (s : State) (lo hi : Byte), s.phase = .decode → s.ConfigLegal → s.cur + 2 ≤ s.codeLen →
    s.code[s.cur]? = some lo → s.code[s.cur + 1]? = some hi →
    (lo.toNat + 256 * hi.toNat) % 64 = 14 →
    step s = .next { s with
      prog := s.prog ++ [.loadConst ((lo.toNat + 256 * hi.toNat) / 64)], cur := s.cur + 2 } ∧
    (lo.toNat + 256 * hi.toNat) / 64 ≤ 1023) ∧
  (∀ b : Nat, b ≤ 1023 → ∃ lo hi : Byte,
    (lo.toNat + 256 * hi.toNat) % 64 = 14 ∧ (lo.toNat + 256 * hi.toNat) / 64 = b)

/-- R65: a decode step at `CUR = CODE_LEN` begins the execute phase and changes nothing else; then `IP` is 0 and the
program store is the decoding of the whole buffer; an empty buffer gives the empty program on the first step. -/
def Obligations.DecodePhaseEndsAtCodeLen : Prop :=
  (∀ s : State, s.phase = .decode → s.ConfigLegal → s.cur = s.codeLen →
    step s = .next { s with phase := .execute }) ∧
  (∀ s : State, Reachable s → s.phase = .decode → s.cur = s.codeLen →
    s.ip = 0 ∧ decodeProgram (s.code.take s.codeLen) = .ok s.prog) ∧
  (∀ (m : Nat) (before s : State), hostBoot [] 0 m before = .next s →
    step s = .next { s with phase := .execute } ∧ s.prog = [])

/-- R73: a decode step touches no stack cell, no data cell and not `IP`; a run that ends with a decode fault has an empty
stack, an all-zero memory and `IP = 0`, and its program store holds the instructions decoded before the fault. -/
def Obligations.DecodingTouchesNoData : Prop :=
  (∀ s t : State, s.phase = .decode → step s = .next t →
    t.stack = s.stack ∧ t.mem = s.mem ∧ t.ip = s.ip) ∧
  (∀ s : State, Reachable s → s.fkind = .unknownOpcode ∨ s.fkind = .truncatedStream →
    s.sp = 0 ∧ (∀ a, s.mem.read a = 0) ∧ s.ip = 0 ∧ decodeProgram (s.code.take s.cur) = .ok s.prog)

/-! ### The instructions -/

/-- LOAD_CONST B pushes B, moves `IP` by 1, changes nothing else and never faults; its encoding is format W.  For B up to
1023 this is R78; that a wider entry is pushed unchanged too is the model's choice (log 9, DESIGN CHOICE, after D18): the
hardware holds no such entry. -/
def Obligations.LoadConstPushesItsOperand : Prop :=
  (∀ (b : Nat) (s : State), exec (.loadConst b) s = .next { s with stack := s.stack ++ [b], ip := s.ip + 1 }) ∧
  (∀ b : Nat, b ≤ 1023 →
    encode (.loadConst b) = [BitVec.ofNat 8 (14 + 64 * (b % 4)), BitVec.ofNat 8 (b / 4)]) ∧
  (∀ b : Nat, (Instr.loadConst b).wellFormed = true ↔ b ≤ 1023)

/-- R81 and R82: READ_MEM replaces an address in range by its cell and moves `IP` by 1; on an empty stack it raises
StackUnderflow, on an address outside [0, MEM_SIZE) AddressOutOfRange with that address; nothing else changes. -/
def Obligations.ReadMemReplacesAddressByCell : Prop :=
  (∀ (s : State) (xs : List Nat) (addr : Nat), s.stack = xs ++ [addr] → addr < s.memSize →
    exec .readMem s = .next { s with stack := xs ++ [s.mem.read addr], ip := s.ip + 1 }) ∧
  (∀ s : State, s.stack = [] →
    exec .readMem s = .next { s with phase := .fault, fkind := .stackUnderflow, fval := 0 }) ∧
  (∀ (s : State) (xs : List Nat) (addr : Nat), s.stack = xs ++ [addr] → s.memSize ≤ addr →
    exec .readMem s = .next { s with phase := .fault, fkind := .addressOutOfRange, fval := addr }) ∧
  (∀ a, State.reset.mem.read a = 0) ∧
  encode .readMem = [0x26#8]

/-- R83 and R84: WRITE_MEM stores the top at the address below it, every other cell unchanged, pops both and moves `IP`
by 1; with fewer than two items it raises StackUnderflow whatever they are, on an address outside [0, MEM_SIZE)
AddressOutOfRange with that address, and then pops and stores nothing. -/
def Obligations.WriteMemStoresTopBelow : Prop :=
  (∀ (s : State) (xs : List Nat) (addr value : Nat), s.stack = xs ++ [addr, value] → addr < s.memSize →
    ∃ m : Memory, exec .writeMem s = .next { s with stack := xs, mem := m, ip := s.ip + 1 } ∧
      m.read addr = value ∧ ∀ a, a ≠ addr → m.read a = s.mem.read a) ∧
  (∀ s : State, s.stack.length < 2 →
    exec .writeMem s = .next { s with phase := .fault, fkind := .stackUnderflow, fval := 0 }) ∧
  (∀ (s : State) (xs : List Nat) (addr value : Nat), s.stack = xs ++ [addr, value] → s.memSize ≤ addr →
    exec .writeMem s = .next { s with phase := .fault, fkind := .addressOutOfRange, fval := addr }) ∧
  encode .writeMem = [0x1B#8]

/-- R85: LE raises UnimplementedOpcode in every state, the empty stack among them, and changes nothing else; it is
decoded without complaint and faults only when execution reaches it. -/
def Obligations.LeAlwaysRaisesUnimplemented : Prop :=
  (∀ s : State, exec .le s = .next { s with phase := .fault, fkind := .unimplementedOpcode, fval := 0 }) ∧
  encode .le = [0x0C#8] ∧
  (∀ rest, decodeFirst (0x0C#8 :: rest) = .instr .le rest) ∧
  (∀ s t : State, step s = .next t → t.phase = .fault → t.fkind = .unimplementedOpcode →
    s.phase = .execute ∧ s.prog[s.ip]? = some .le)

/-- The frame of the forms that store nothing (LOAD_CONST, READ_MEM, LE): every cell of data memory, the code, the
program store, the cursor, the configuration; and the status registers, unless the form faults. -/
def Obligations.NonStoringFormsFrame : Prop :=
  ∀ (i : Instr) (s t : State), i ≠ .writeMem → exec i s = .next t →
    (∀ a, t.mem.read a = s.mem.read a) ∧
    t.code = s.code ∧ t.codeLen = s.codeLen ∧ t.cfgCodeLen = s.cfgCodeLen ∧ t.cfgMemSize = s.cfgMemSize ∧
    t.memSize = s.memSize ∧ t.cur = s.cur ∧ t.prog = s.prog ∧
    ((t.phase = s.phase ∧ t.fkind = s.fkind ∧ t.fval = s.fval) ∨
      (t.phase = .fault ∧ t.fkind ≠ .none ∧ t.stack = s.stack ∧ t.ip = s.ip))

/-- The frame of WRITE_MEM: every cell but the one at the address its operands give; the items below its operands; the
code, the program store, the cursor, the configuration; and the status registers, unless it faults. -/
def Obligations.WriteMemFrame : Prop :=
  ∀ s t : State, exec .writeMem s = .next t →
    (∀ a v, s.storeOperands = some (a, v) → ∀ c, c ≠ a → t.mem.read c = s.mem.read c) ∧
    (s.storeOperands = none → ∀ c, t.mem.read c = s.mem.read c) ∧
    t.code = s.code ∧ t.codeLen = s.codeLen ∧ t.cfgCodeLen = s.cfgCodeLen ∧ t.cfgMemSize = s.cfgMemSize ∧
    t.memSize = s.memSize ∧ t.cur = s.cur ∧ t.prog = s.prog ∧
    ((t.phase = s.phase ∧ t.fkind = s.fkind ∧ t.fval = s.fval ∧ ∃ a v, s.stack = t.stack ++ [a, v]) ∨
      (t.phase = .fault ∧ t.fkind ≠ .none ∧ t.stack = s.stack ∧ t.ip = s.ip ∧ ∀ c, t.mem.read c = s.mem.read c))

/-- R40: a READ_MEM sees the value the latest WRITE_MEM stored at its address, and at any other address what stood there
before that store. -/
def Obligations.ReadSeesLatestWrite : Prop :=
  ∀ (s t u : State) (xs ys : List Nat) (a v c : Nat), s.stack = xs ++ [a, v] → a < s.memSize →
    exec .writeMem s = .next t → u.mem = t.mem → u.memSize = s.memSize → u.stack = ys ++ [c] → c < s.memSize →
    exec .readMem u =
      .next { u with stack := ys ++ [if c = a then v else s.mem.read c], ip := u.ip + 1 }

/-! ### Sequencing -/

/-- A step runs the decoded instruction: in phase EXECUTE the entry at `IP`, and a step is then exactly that
instruction's meaning; in phase DECODE the instruction at `CUR` enters the program store. -/
def Obligations.StepRunsFetchedInstruction : Prop :=
  (∀ (s : State) (i : Instr), s.phase = .execute → s.ConfigLegal → s.prog[s.ip]? = some i →
    step s = exec i s) ∧
  (∀ (s : State) (i : Instr) (rest : List Byte), s.phase = .decode → s.ConfigLegal →
    decodeFirst ((s.code.take s.codeLen).drop s.cur) = .instr i rest →
    step s = .next { s with prog := s.prog ++ [i], cur := s.cur + i.lengthBytes })

/-- A word of the opcode table placed for the next step is run by it: exactly the instruction the decoder reads. -/
def Obligations.PlacedWordIsRunNext : Prop :=
  ∀ (s : State) (nbits w : Nat) (i : Instr), 0 < s.memSize → decodeTableWord nbits w = some i →
    step (s.withFetchWord nbits w) = exec i (s.withFetchWord nbits w) ∧
    (s.withFetchWord nbits w).stack = s.stack ∧ (s.withFetchWord nbits w).mem = s.mem

/-- R76: an execute step at `IP = PROG_LEN` sets `PHASE` to DONE and changes nothing else; nothing else ends a run with
success; an empty program reaches DONE on the first execute step with the stack empty and the memory all zero. -/
def Obligations.RunEndsByExhaustion : Prop :=
  (∀ s : State, s.phase = .execute → s.ConfigLegal → s.ip = s.progLen →
    step s = .next { s with phase := .done }) ∧
  (∀ s t : State, step s = .next t → t.phase = .done → s.phase = .execute ∧ s.ip = s.progLen) ∧
  (∀ s : State, Reachable s → s.phase = .execute → s.prog = [] →
    step s = .next { s with phase := .done } ∧ s.stack = [] ∧ ∀ a, s.mem.read a = 0)

/-- The numbers of `PHASE`, the legal transitions, and no step from a terminal phase (10_state.md section 5, R21).  That "no
step is enabled" is answered as `.fault .runDone` and `.fault .runFaulted` is the model's form of it (log 5, DEDUCED). -/
def Obligations.PhaseTransitions : Prop :=
  (Phase.decode.code = 0 ∧ Phase.execute.code = 1 ∧ Phase.done.code = 2 ∧ Phase.fault.code = 3) ∧
  (∀ s t : State, step s = .next t →
    (s.phase = .decode ∧ (t.phase = .decode ∨ t.phase = .execute ∨ t.phase = .fault)) ∨
    (s.phase = .execute ∧ (t.phase = .execute ∨ t.phase = .done ∨ t.phase = .fault))) ∧
  (∀ s : State, s.phase = .done → step s = .fault .runDone) ∧
  (∀ s : State, s.phase = .fault → step s = .fault .runFaulted)

/-- R17 and R16: a step moves `IP` by exactly 1 when an instruction completes and otherwise not at all; it moves `CUR`
exactly by the length of the instruction a decode step appends, and otherwise not at all. -/
def Obligations.CountersMoveForward : Prop :=
  ∀ s t : State, step s = .next t →
    (s.phase = .execute ∧ t.phase = .execute → t.ip = s.ip + 1) ∧
    (¬ (s.phase = .execute ∧ t.phase = .execute) → t.ip = s.ip) ∧
    (s.phase = .decode ∧ t.phase = .decode →
      ∃ i : Instr, t.prog = s.prog ++ [i] ∧ t.cur = s.cur + i.lengthBytes) ∧
    (¬ (s.phase = .decode ∧ t.phase = .decode) → t.cur = s.cur ∧ t.prog = s.prog)

/-- R43: no step changes the code buffer, and no step of the execute phase the program store; with R105, no step changes
the sampled configuration or the host's configuration registers. -/
def Obligations.StoresNeverReachCode : Prop :=
  ∀ s t : State, step s = .next t →
    t.code = s.code ∧ t.codeLen = s.codeLen ∧ t.memSize = s.memSize ∧
    t.cfgCodeLen = s.cfgCodeLen ∧ t.cfgMemSize = s.cfgMemSize ∧
    (s.phase = .execute → t.prog = s.prog)

/-! ### Faults -/

/-- R87: whenever a step ends in phase FAULT, one of the five causes of the table holds, in its phase, with the kind and
the `FVAL` the table gives and the position left in `CUR` or `IP`. -/
def Obligations.EveryFaultHasItsCause : Prop :=
  ∀ s t : State, step s = .next t → t.phase = .fault →
    t.cur = s.cur ∧ t.ip = s.ip ∧
    ((t.fkind = .unknownOpcode ∧ s.phase = .decode ∧ s.cur + 2 ≤ s.codeLen ∧
        ∃ lo : Byte, s.code[s.cur]? = some lo ∧ ¬ OneByteOpcode lo ∧
          lo.toNat % 64 ≠ 14 ∧ t.fval = lo.toNat % 64) ∨
      (t.fkind = .truncatedStream ∧ s.phase = .decode ∧ s.cur + 1 = s.codeLen ∧ t.fval = 0 ∧
        ∃ b : Byte, s.code[s.cur]? = some b ∧ ¬ OneByteOpcode b) ∨
      (t.fkind = .stackUnderflow ∧ s.phase = .execute ∧ t.fval = 0 ∧
        (s.prog[s.ip]? = some .readMem ∧ s.sp < 1 ∨ s.prog[s.ip]? = some .writeMem ∧ s.sp < 2)) ∨
      (t.fkind = .addressOutOfRange ∧ s.phase = .execute ∧ s.memSize ≤ t.fval ∧
        (s.prog[s.ip]? = some .readMem ∧ (∃ xs, s.stack = xs ++ [t.fval]) ∨
          s.prog[s.ip]? = some .writeMem ∧ ∃ xs v, s.stack = xs ++ [t.fval, v])) ∨
      (t.fkind = .unimplementedOpcode ∧ s.phase = .execute ∧ t.fval = 0 ∧ s.prog[s.ip]? = some .le))

/-- A step that faults writes `PHASE`, `FKIND` and `FVAL` and nothing else.  Precision is a choice, not the source's: R97
says "precision is this spec's choice" (D13; log 10, PRESUMED, unsafe against the source's software). -/
def Obligations.FaultsArePrecise : Prop :=
  ∀ s t : State, step s = .next t → t.phase = .fault →
    t.fkind ≠ .none ∧ t = { s with phase := .fault, fkind := t.fkind, fval := t.fval }

/-- R22: the numbers of `FKIND`, 6 and 7 never among them; a step writes it by a fault only; in every reachable state it
is non-zero exactly when `PHASE = FAULT`. -/
def Obligations.FaultKindMatchesPhase : Prop :=
  (FaultKind.none.code = 0 ∧ FaultKind.unknownOpcode.code = 1 ∧ FaultKind.truncatedStream.code = 2 ∧
    FaultKind.stackUnderflow.code = 3 ∧ FaultKind.addressOutOfRange.code = 4 ∧
    FaultKind.unimplementedOpcode.code = 5 ∧ ∀ k : FaultKind, k.code ≠ 6 ∧ k.code ≠ 7) ∧
  (∀ s t : State, step s = .next t → t.fkind ≠ s.fkind → t.phase = .fault) ∧
  (∀ s : State, Reachable s → (s.fkind.code ≠ 0 ↔ s.phase = .fault))

/-- R95: StackUnderflow has priority over AddressOutOfRange in one instruction; LE raises only UnimplementedOpcode and
LOAD_CONST nothing. -/
def Obligations.UnderflowBeatsOutOfRange : Prop :=
  (∀ (s t : State) (x : Nat), s.stack = [x] → exec .writeMem s = .next t → t.fkind = .stackUnderflow) ∧
  (∀ (s t : State), s.stack = [] → exec .readMem s = .next t → t.fkind = .stackUnderflow) ∧
  (∀ (s t : State), exec .le s = .next t → t.fkind = .unimplementedOpcode) ∧
  (∀ (s t : State) (b : Nat), exec (.loadConst b) s = .next t → t.phase = s.phase ∧ t.fkind = s.fkind)

/-! ### Invariants and whole runs -/

/-- The invariant of every run is kept by every step, from every state that has it, reachable or not. -/
def Obligations.StepKeepsTheInvariant : Prop :=
  ∀ s t : State, s.Inv → step s = .next t → t.Inv

/-- The reset state has the invariant, every legal boot establishes it from any earlier state, and the host's writes of its
configuration registers keep it. -/
def Obligations.BootEstablishesTheInvariant : Prop :=
  State.reset.Inv ∧
  (∀ (bytes : List Byte) (codeLen memSize : Nat) (before s : State),
    hostBoot bytes codeLen memSize before = .next s → s.Inv) ∧
  (∀ (s : State) (n : Nat), s.Inv → (s.writeCfgMemSize n).Inv ∧ (s.writeCfgCodeLen n).Inv)

/-- From a state with the invariant a step never refuses: the refusals for dead entries are never met in a run. -/
def Obligations.RunsAreNeverRefused : Prop :=
  ∀ s : State, s.Inv → ∀ r : Refusal, step s ≠ .refused r

/-- R29: in every reachable state every stack item and every memory cell is at most 1023; so with `MEM_SIZE >= 1024`
AddressOutOfRange never occurs. -/
def Obligations.ValuesStayBelow1024 : Prop :=
  ∀ s : State, Reachable s →
    (∀ v ∈ s.stack, v ≤ 1023) ∧ (∀ a, s.mem.read a ≤ 1023) ∧
    (1024 ≤ s.memSize → s.fkind ≠ .addressOutOfRange)

/-- R30: in every reachable state `SP <= floor(CODE_LEN / 2)`, `PROG_LEN <= CODE_LEN`, `IP <= PROG_LEN` and
`CUR <= CODE_LEN`; hence no push finds a stack of at least `floor(CODE_LEN / 2)` cells full, and no append a program store
of at least `CODE_LEN` entries. -/
def Obligations.CountersStayBounded : Prop :=
  (∀ s : State, Reachable s →
    s.sp ≤ s.codeLen / 2 ∧ s.progLen ≤ s.codeLen ∧ s.ip ≤ s.progLen ∧ s.cur ≤ s.codeLen) ∧
  (∀ (s t : State) (stackDepth : Nat), Reachable s → step s = .next t → s.codeLen / 2 ≤ stackDepth →
    s.sp < t.sp → s.sp < stackDepth) ∧
  (∀ (s t : State) (progCap : Nat), Reachable s → step s = .next t → s.codeLen ≤ progCap →
    s.progLen < t.progLen → s.progLen < progCap)

/-- R74: the decode phase ends within `CODE_LEN + 1` steps, in EXECUTE or in one of the two decode faults; each decode
step that stays in the phase moves `CUR` by at least 1. -/
def Obligations.DecodePhaseTerminates : Prop :=
  (∀ (bytes : List Byte) (codeLen memSize : Nat) (before s : State),
    hostBoot bytes codeLen memSize before = .next s →
    ∃ (n : Nat) (t : State), n ≤ codeLen + 1 ∧ runFor n s = .next t ∧
      (t.phase = .execute ∨
        t.phase = .fault ∧ (t.fkind = .truncatedStream ∨ t.fkind = .unknownOpcode))) ∧
  (∀ s t : State, step s = .next t → s.phase = .decode → t.phase = .decode → s.cur + 1 ≤ t.cur)

/-- R80: each execute step that stays in the phase moves `IP` by 1, the execute phase ends within `PROG_LEN + 1` steps,
and every run within `2 * CODE_LEN + 2` steps of its boot, in DONE or FAULT. -/
def Obligations.EveryRunTerminates : Prop :=
  (∀ s t : State, step s = .next t → s.phase = .execute → t.phase = .execute → t.ip = s.ip + 1) ∧
  (∀ s : State, Reachable s → s.phase = .execute →
    ∃ (n : Nat) (t : State), n ≤ s.progLen + 1 ∧ runFor n s = .next t ∧
      t.terminal = true) ∧
  (∀ (bytes : List Byte) (codeLen memSize : Nat) (before s : State),
    hostBoot bytes codeLen memSize before = .next s →
    ∃ (n : Nat) (t : State), n ≤ 2 * codeLen + 2 ∧ runFor n s = .next t ∧
      t.terminal = true)

/-- The decode phase of the machine computes the Decoder as a function of the buffer (R63 to R69), in the step counts of
R116: a buffer that decodes fills the program store in `PROG_LEN + 1` steps, and one that does not ends in the fault at
its offset after `k + 1` steps, `k` instructions decoded before it. -/
def Obligations.DecodePhaseComputesDecoder : Prop :=
  ∀ s : State, s.phase = .decode → s.ConfigLegal → s.cur = 0 → s.prog = [] →
    (∀ p, decodeProgram (s.code.take s.codeLen) = .ok p →
      runFor (p.length + 1) s =
        .next { s with prog := p, cur := s.codeLen, phase := .execute }) ∧
    (∀ off p, decodeProgram (s.code.take s.codeLen) = .truncatedStream off p →
      runFor (p.length + 1) s =
        .next { s with prog := p, cur := off, phase := .fault, fkind := .truncatedStream, fval := 0 }) ∧
    (∀ off a p, decodeProgram (s.code.take s.codeLen) = .unknownOpcode off a p →
      runFor (p.length + 1) s =
        .next { s with prog := p, cur := off, phase := .fault, fkind := .unknownOpcode, fval := a.toNat })

/-- The execute phase of the machine computes the Executor as a function of the program (R75 to R85), in the step counts
of R116: the final stack and memory of a success, or the kind, the instruction index and the value of the fault.  For
program-store entries wider than 10 bits, which no run from bytes holds, it rests on the model's choice of log 9. -/
def Obligations.ExecutePhaseComputesExecutor : Prop :=
  ∀ s : State, s.phase = .execute → s.ConfigLegal → s.ip ≤ s.progLen →
    (∀ st m, refExec s.memSize (s.prog.drop s.ip) s.ip s.stack.reverse s.mem.read = .done st m →
      ∃ t : State, runFor (s.progLen - s.ip + 1) s = .next t ∧
        t.phase = .done ∧ t.ip = s.progLen ∧ t.stack = st.reverse ∧ t.mem.read = m) ∧
    (∀ k n v, refExec s.memSize (s.prog.drop s.ip) s.ip s.stack.reverse s.mem.read = .fault k n v →
      s.ip ≤ n ∧ n < s.progLen ∧
      ∃ t : State, runFor (n - s.ip + 1) s = .next t ∧
        t.phase = .fault ∧ t.fkind = k ∧ t.ip = n ∧ t.fval = v)

/-- R109: a run ends with success when, and only when, its whole buffer decodes and every decoded instruction executes
without fault; and a run that ended with success holds the decoding of its whole buffer, all of it executed. -/
def Obligations.SuccessMeansDecodedAndExecuted : Prop :=
  (∀ (bytes : List Byte) (codeLen memSize : Nat) (before s : State),
    hostBoot bytes codeLen memSize before = .next s →
    ((∃ (n : Nat) (t : State), runFor n s = .next t ∧ t.phase = .done) ↔
      ∃ (p : List Instr) (st : List Nat) (m : Nat → Nat),
        decodeProgram (bytes.take codeLen) = .ok p ∧ refExec memSize p 0 [] (fun _ => 0) = .done st m)) ∧
  (∀ s : State, Reachable s → s.phase = .done →
    decodeProgram (s.code.take s.codeLen) = .ok s.prog ∧ s.ip = s.progLen)

/-- R85's purpose, "so that incomplete programs never appear to 'succeed'": no run whose program holds an LE ends in
DONE. -/
def Obligations.NoSuccessfulRunHoldsLe : Prop :=
  ∀ s : State, Reachable s → s.phase = .done → Instr.le ∉ s.prog

/-! ### Reset and the host -/

/-- R28 and R104: a legal boot, in any phase and over any earlier state, gives exactly the values of the reset table;
nothing of the earlier run survives. -/
def Obligations.BootGivesResetValues : Prop :=
  (∀ (bytes : List Byte) (codeLen memSize : Nat) (before : State), 0 < memSize → codeLen ≤ bytes.length →
    hostBoot bytes codeLen memSize before = .next
      { code := bytes, codeLen := codeLen, cfgCodeLen := codeLen, cfgMemSize := memSize, memSize := memSize,
        cur := 0, prog := [], ip := 0, stack := [], mem := [], phase := .decode, fkind := .none, fval := 0 }) ∧
  (∀ a, Memory.read [] a = 0) ∧
  State.reset.memSize = 1024

/-- R105 and R24: a reset samples the configuration registers; writing them during a run changes nothing else in what any
step does, until the next reset. -/
def Obligations.ConfigurationIsSampledAtReset : Prop :=
  (∀ s : State, s.applyReset.memSize = s.cfgMemSize ∧ s.applyReset.codeLen = s.cfgCodeLen) ∧
  (∀ (s t : State) (n : Nat), step s = .next t →
    step (s.writeCfgMemSize n) = .next (t.writeCfgMemSize n) ∧
    step (s.writeCfgCodeLen n) = .next (t.writeCfgCodeLen n)) ∧
  (∀ s t : State, step s = .next t → t.memSize = s.memSize ∧ t.codeLen = s.codeLen)

/-- R72: bytes of the code buffer at offsets `CODE_LEN` and above are never read: two states that agree on the stream take
the same steps. -/
def Obligations.BytesBeyondCodeLenAreNeverRead : Prop :=
  ∀ (s t : State) (other : List Byte), step s = .next t → s.codeLen ≤ other.length →
    other.take s.codeLen = s.code.take s.codeLen →
    step (s.placeCode other) = .next (t.placeCode other)

/-- The model's choice (log 6, after R107 and U6): a `MEM_SIZE` of 0 and a `CODE_LEN` beyond the placed bytes are
refused, each at boot and by every step in DECODE or EXECUTE. -/
def Obligations.IllegalConfigurationIsRefused : Prop :=
  (∀ (bytes : List Byte) (codeLen : Nat) (before : State),
    hostBoot bytes codeLen 0 before = .refused .memSizeNotPositive) ∧
  (∀ (bytes : List Byte) (codeLen memSize : Nat) (before : State), 0 < memSize → bytes.length < codeLen →
    hostBoot bytes codeLen memSize before = .refused .codeNotLoaded) ∧
  (∀ s : State, s.terminal = false → s.memSize = 0 → step s = .refused .memSizeNotPositive) ∧
  (∀ s : State, s.terminal = false → 0 < s.memSize → s.code.length < s.codeLen → step s = .refused .codeNotLoaded)

/-- In a terminal phase the host reads the status registers, the counters, every existing cell and every live stack item
(R110); the result of a run is, in DONE, the whole data memory below `MEM_SIZE` and the stack, bottom first, and in FAULT
none (R98, R109).  That a read in DECODE or EXECUTE, or of a cell or an item that does not exist, answers nothing is the
model's form (log 14, DEDUCED). -/
def Obligations.HostReadsInTerminalPhases : Prop :=
  (∀ s : State, s.phase = .done ∨ s.phase = .fault →
    hostStatus s = some ⟨s.phase.code, s.fkind.code, s.fval, s.cur, s.ip, s.stack.length⟩ ∧
    (∀ a, a < s.memSize → hostReadMem s a = some (s.mem.read a)) ∧
    (∀ a, s.memSize ≤ a → hostReadMem s a = none) ∧
    (∀ i v, s.stack[i]? = some v → hostReadStack s i = some v) ∧
    (∀ i, s.sp ≤ i → hostReadStack s i = none)) ∧
  (∀ s : State, s.phase = .decode ∨ s.phase = .execute →
    hostStatus s = none ∧ (∀ a, hostReadMem s a = none) ∧ (∀ i, hostReadStack s i = none) ∧ runResult s = none) ∧
  (∀ s : State, s.phase = .done →
    ∃ r : RunResult, runResult s = some r ∧ r.stack = s.stack ∧ r.memory.length = s.memSize ∧
      ∀ a, a < s.memSize → r.memory[a]? = some (s.mem.read a)) ∧
  (∀ s : State, s.phase = .fault → runResult s = none)

/-- R111: during a run the host has no move but reset.  In DECODE and EXECUTE its configuration writes are not answered,
and a legal boot abandons the run for a fresh state in phase DECODE; between runs, in DONE and FAULT, a write changes its
register and nothing else.  That a move the host does not have answers nothing is the model's form (log 11). -/
def Obligations.HostHasOnlyResetDuringRun : Prop :=
  (∀ (s : State) (n : Nat), s.phase = .decode ∨ s.phase = .execute →
    hostWriteCfgMemSize s n = none ∧ hostWriteCfgCodeLen s n = none) ∧
  (∀ (s : State) (bytes : List Byte) (codeLen memSize : Nat), 0 < memSize → codeLen ≤ bytes.length →
    ∃ t : State, hostBoot bytes codeLen memSize s = .next t ∧ t.phase = .decode ∧ t.cur = 0 ∧ t.ip = 0 ∧
      t.stack = [] ∧ ∀ a, t.mem.read a = 0) ∧
  (∀ (s : State) (n : Nat), s.phase = .done ∨ s.phase = .fault →
    hostWriteCfgMemSize s n = some { s with cfgMemSize := n } ∧
    hostWriteCfgCodeLen s n = some { s with cfgCodeLen := n })
end

