-- ==== Sys2Proof/Laws/Decode.lean ====
section
/-! SUPPORT. What reading one instruction can answer, and lengths of encodings. -/

namespace Sys2Proof

/-- The word as a number: the byte at the lower offset is the low one. -/
theorem assembleWord_toNat (lo hi : Byte) : (assembleWord lo hi).toNat = lo.toNat + 256 * hi.toNat := by
  have h1 := lo.isLt
  have h2 := hi.isLt
  unfold assembleWord
  rw [BitVec.toNat_or]
  simp only [BitVec.toNat_setWidth, BitVec.toNat_shiftLeft]
  rw [Nat.mod_eq_of_lt (by omega), Nat.mod_eq_of_lt (b := 2 ^ 16) (a := hi.toNat) (by omega),
    Nat.shiftLeft_eq, Nat.mod_eq_of_lt (by omega), Nat.or_comm, Nat.mul_comm hi.toNat,
    ← Nat.two_pow_add_eq_or_of_lt (i := 8) (by omega)]
  omega

theorem fieldA_toNat (w : Word) : (fieldA w).toNat = w.toNat % 64 := by simp [fieldA]

theorem fieldB_toNat (w : Word) : (fieldB w).toNat = w.toNat / 64 := by
  have := w.isLt
  simp [fieldB, Nat.shiftRight_eq_div_pow]
  omega

theorem wellFormed_loadConst (b : Nat) : (Instr.loadConst b).wellFormed = true ↔ b ≤ 1023 := by
  unfold Instr.wellFormed Config.operandBits
  rw [decide_eq_true_iff]
  omega

/-- A byte is a one-byte opcode in exactly three cases. -/
theorem oneByteInstr_eq_some {b : Byte} {i : Instr} :
    oneByteInstr b = some i ↔
      (b = opLe ∧ i = .le) ∨ (b = opWriteMem ∧ i = .writeMem) ∨ (b = opReadMem ∧ i = .readMem) := by
  unfold oneByteInstr
  by_cases h1 : b = opLe
  · subst h1
    simp [opLe, opWriteMem, opReadMem, eq_comm]
  · by_cases h2 : b = opWriteMem
    · subst h2
      simp [opLe, opWriteMem, opReadMem, eq_comm]
    · by_cases h3 : b = opReadMem
      · subst h3
        simp [opLe, opWriteMem, opReadMem, eq_comm]
      · simp [h1, h2, h3]

/-- Everything an answer with an instruction can come from: a one-byte opcode, or a word whose A field is 14. -/
theorem decodeFirst_eq_instr {bs rest : List Byte} {i : Instr} (h : decodeFirst bs = .instr i rest) :
    (∃ b0, bs = b0 :: rest ∧ oneByteInstr b0 = some i) ∨
    (∃ b0 b1, bs = b0 :: b1 :: rest ∧ oneByteInstr b0 = none ∧ fieldA (assembleWord b0 b1) = opLoadConst ∧
      i = .loadConst (fieldB (assembleWord b0 b1)).toNat) := by
  match bs with
  | [] => simp [decodeFirst] at h
  | b0 :: tl =>
    cases h1 : oneByteInstr b0 with
    | some j =>
      simp only [decodeFirst, h1, Decoded.instr.injEq] at h
      obtain ⟨rfl, rfl⟩ := h
      exact .inl ⟨b0, rfl, h1⟩
    | none =>
      match tl with
      | [] => simp [decodeFirst, h1] at h
      | b1 :: rest' =>
        by_cases ha : fieldA (assembleWord b0 b1) = opLoadConst
        · simp only [decodeFirst, h1, if_pos ha, Decoded.instr.injEq] at h
          obtain ⟨rfl, rfl⟩ := h
          exact .inr ⟨b0, b1, rfl, h1, ha, rfl⟩
        · simp [decodeFirst, h1, ha] at h

theorem decodeFirst_eq_endOfBuffer {bs : List Byte} : decodeFirst bs = .endOfBuffer ↔ bs = [] := by
  match bs with
  | [] => simp [decodeFirst]
  | b0 :: tl =>
    cases h1 : oneByteInstr b0 with
    | some j => simp [decodeFirst, h1]
    | none =>
      match tl with
      | [] => simp [decodeFirst, h1]
      | b1 :: rest' =>
        by_cases ha : fieldA (assembleWord b0 b1) = opLoadConst <;> simp [decodeFirst, h1, ha]

theorem decodeFirst_eq_truncatedStream {bs : List Byte} :
    decodeFirst bs = .truncatedStream ↔ ∃ b0, bs = [b0] ∧ oneByteInstr b0 = none := by
  match bs with
  | [] => simp [decodeFirst]
  | b0 :: tl =>
    cases h1 : oneByteInstr b0 with
    | some j => simp [decodeFirst, h1]
    | none =>
      match tl with
      | [] => simp [decodeFirst, h1]
      | b1 :: rest' =>
        by_cases ha : fieldA (assembleWord b0 b1) = opLoadConst <;> simp [decodeFirst, h1, ha]

theorem decodeFirst_eq_unknownOpcode {bs : List Byte} {a : BitVec 6} :
    decodeFirst bs = .unknownOpcode a ↔
      ∃ b0 b1 rest, bs = b0 :: b1 :: rest ∧ oneByteInstr b0 = none ∧ fieldA (assembleWord b0 b1) = a ∧
        a ≠ opLoadConst := by
  match bs with
  | [] => simp [decodeFirst]
  | b0 :: tl =>
    cases h1 : oneByteInstr b0 with
    | some j => simp [decodeFirst, h1]
    | none =>
      match tl with
      | [] => simp [decodeFirst, h1]
      | b1 :: rest' =>
        by_cases ha : fieldA (assembleWord b0 b1) = opLoadConst
        · simp [decodeFirst, h1, ha, eq_comm]
        · simp only [decodeFirst, h1, if_neg ha, Decoded.unknownOpcode.injEq]
          constructor
          · rintro rfl
            exact ⟨b0, b1, rest', rfl, h1, rfl, ha⟩
          · rintro ⟨c0, c1, r, hc, -, hf, -⟩
            simp only [List.cons.injEq] at hc
            obtain ⟨rfl, rfl, -⟩ := hc
            exact hf

/-- An instruction read takes exactly its length off the stream. -/
theorem decodeFirst_length {bs rest : List Byte} {i : Instr} (h : decodeFirst bs = .instr i rest) :
    rest = bs.drop i.lengthBytes ∧ bs.length = i.lengthBytes + rest.length := by
  rcases decodeFirst_eq_instr h with ⟨b0, rfl, hi⟩ | ⟨b0, b1, rfl, -, -, rfl⟩
  · rcases oneByteInstr_eq_some.1 hi with ⟨-, rfl⟩ | ⟨-, rfl⟩ | ⟨-, rfl⟩ <;>
      simp [Instr.lengthBytes, Nat.add_comm]
  · refine ⟨by simp [Instr.lengthBytes], ?_⟩
    simp only [Instr.lengthBytes, List.length_cons]
    omega

theorem Instr.lengthBytes_pos (i : Instr) : 0 < i.lengthBytes := by cases i <;> simp [Instr.lengthBytes]

@[simp] theorem encodeProgram_nil : encodeProgram [] = [] := rfl

@[simp] theorem encodeProgram_cons (i : Instr) (p : List Instr) :
    encodeProgram (i :: p) = encode i ++ encodeProgram p := rfl

theorem encodeProgram_append (p q : List Instr) :
    encodeProgram (p ++ q) = encodeProgram p ++ encodeProgram q := by
  induction p with
  | nil => rfl
  | cons i p ih => simp [ih]

end Sys2Proof
end

