-- ==== Sys2Proof/Laws/Memory.lean ====
section
/-! SUPPORT. Data memory: read after write, and the canonical form that every operation keeps. -/

namespace Sys2Proof.Machine

@[simp] theorem Memory.read_nil (a : Nat) : Memory.read [] a = Memory.unlisted := rfl

@[simp] theorem Memory.read_cons (k : Nat) (v : Nat) (m : Memory) (a : Nat) :
    Memory.read ((k, v) :: m) a = if k = a then v else m.read a := rfl

theorem Memory.read_of_not_listed {m : Memory} {a : Nat} (h : ∀ c ∈ m, c.1 ≠ a) :
    m.read a = Memory.unlisted := by
  induction m with
  | nil => rfl
  | cons c m ih =>
    obtain ⟨k, v⟩ := c
    have hk : k ≠ a := h (k, v) (by simp)
    simpa [hk] using ih fun c hc => h c (by simp [hc])

theorem Memory.mem_erase {m : Memory} {a : Nat} {c : Nat × Nat} :
    c ∈ m.erase a ↔ c ∈ m ∧ c.1 ≠ a := by simp [Memory.erase]

theorem Memory.read_erase (m : Memory) (a b : Nat) :
    (m.erase a).read b = if b = a then Memory.unlisted else m.read b := by
  by_cases hb : b = a
  · subst hb
    simpa using Memory.read_of_not_listed fun c hc => (Memory.mem_erase.1 hc).2
  · induction m with
    | nil => simp [Memory.erase]
    | cons c m ih =>
      obtain ⟨k, v⟩ := c
      rw [if_neg hb] at ih ⊢
      by_cases hk : k = a
      · have hkb : k ≠ b := by omega
        simpa [Memory.erase, hk, show a ≠ b by omega] using ih
      · by_cases hkb : k = b
        · simp [Memory.erase, hkb, hb]
        · simpa [Memory.erase, hk, hkb] using ih

theorem Memory.mem_insert {m : Memory} {a : Nat} {v : Nat} {c : Nat × Nat} :
    c ∈ m.insert a v ↔ c = (a, v) ∨ c ∈ m := by
  induction m with
  | nil => simp [Memory.insert]
  | cons d m ih =>
    obtain ⟨k, w⟩ := d
    by_cases h : a < k
    · simp [Memory.insert, h]
    · simp only [Memory.insert, if_neg h, List.mem_cons, ih]
      tauto

theorem Memory.read_insert {m : Memory} {a : Nat} (v : Nat) (b : Nat) (hm : ∀ c ∈ m, c.1 ≠ a) :
    (m.insert a v).read b = if b = a then v else m.read b := by
  induction m with
  | nil => simp [Memory.insert, eq_comm]
  | cons d m ih =>
    obtain ⟨k, w⟩ := d
    have hk : k ≠ a := hm (k, w) (by simp)
    have ih := ih fun c hc => hm c (by simp [hc])
    by_cases h : a < k
    · simp [Memory.insert, h, eq_comm]
    · by_cases hb : b = a
      · subst hb
        simpa [Memory.insert, h, hk] using ih
      · simp only [Memory.insert, if_neg h, Memory.read_cons, ih, if_neg hb]

/-- Read after write, in every memory. -/
theorem Memory.read_write (m : Memory) (a : Nat) (v : Nat) (b : Nat) :
    (m.write a v).read b = if b = a then v else m.read b := by
  by_cases hv : v = Memory.unlisted
  · simp [Memory.write, hv, Memory.read_erase]
  · simp only [Memory.write, if_neg hv]
    rw [Memory.read_insert v b fun c hc => (Memory.mem_erase.1 hc).2, Memory.read_erase]
    split <;> rfl

/-- What a write may list: the new cell, or what was listed. -/
theorem Memory.mem_write {m : Memory} {a : Nat} {v : Nat} {c : Nat × Nat} (h : c ∈ m.write a v) :
    c = (a, v) ∨ c ∈ m := by
  by_cases hv : v = Memory.unlisted
  · simp only [Memory.write, if_pos hv] at h
    exact .inr (Memory.mem_erase.1 h).1
  · simp only [Memory.write, if_neg hv] at h
    exact (Memory.mem_insert.1 h).imp_right fun h => (Memory.mem_erase.1 h).1

theorem Memory.wf_nil : Memory.wf [] := by simp [Memory.wf]

theorem Memory.wf_erase {m : Memory} (h : m.wf) (a : Nat) : (m.erase a).wf :=
  ⟨h.1.filter _, fun c hc => h.2 c (Memory.mem_erase.1 hc).1⟩

theorem Memory.wf_insert {m : Memory} {a : Nat} {v : Nat} (h : m.wf) (hm : ∀ c ∈ m, c.1 ≠ a)
    (hv : v ≠ Memory.unlisted) : (m.insert a v).wf := by
  refine ⟨?_, fun c hc => ?_⟩
  · obtain ⟨hs, -⟩ := h
    induction m with
    | nil => simp [Memory.insert]
    | cons d m ih =>
      obtain ⟨k, w⟩ := d
      have hk : k ≠ a := hm (k, w) (by simp)
      obtain ⟨hd, hs⟩ := List.pairwise_cons.1 hs
      by_cases hlt : a < k
      · simp only [Memory.insert, if_pos hlt, List.pairwise_cons]
        refine ⟨fun c hc => ?_, hd, hs⟩
        rcases List.mem_cons.1 hc with rfl | hc
        · exact hlt
        · exact hlt.trans (hd c hc)
      · simp only [Memory.insert, if_neg hlt, List.pairwise_cons]
        refine ⟨fun c hc => ?_, ih (fun c hc => hm c (by simp [hc])) hs⟩
        rcases Memory.mem_insert.1 hc with rfl | hc
        · show k < a
          omega
        · exact hd c hc
  · rcases Memory.mem_insert.1 hc with rfl | hc
    · exact hv
    · exact h.2 c hc

/-- Every write keeps the canonical form. -/
theorem Memory.wf_write {m : Memory} (h : m.wf) (a : Nat) (v : Nat) : (m.write a v).wf := by
  by_cases hv : v = Memory.unlisted
  · simpa [Memory.write, hv] using Memory.wf_erase h a
  · simpa [Memory.write, hv] using
      Memory.wf_insert (Memory.wf_erase h a) (fun c hc => (Memory.mem_erase.1 hc).2) hv

/-- A listed cell of a canonical memory reads as listed. -/
theorem Memory.read_of_mem {m : Memory} (h : m.wf) {c : Nat × Nat} (hc : c ∈ m) : m.read c.1 = c.2 := by
  obtain ⟨hs, -⟩ := h
  induction m with
  | nil => simp at hc
  | cons d m ih =>
    obtain ⟨k, w⟩ := d
    obtain ⟨hd, hs⟩ := List.pairwise_cons.1 hs
    rcases List.mem_cons.1 hc with rfl | hc
    · simp
    · have hne : k ≠ c.1 := (hd c hc).ne
      simpa [hne] using ih hc hs

/-- A read gives what an unlisted address reads as, or a listed cell. -/
theorem Memory.read_cases (m : Memory) (a : Nat) : m.read a = Memory.unlisted ∨ (a, m.read a) ∈ m := by
  induction m with
  | nil => simp
  | cons d m ih =>
    obtain ⟨k, w⟩ := d
    by_cases hk : k = a
    · simp [hk]
    · simp only [Memory.read_cons, if_neg hk, List.mem_cons]
      exact ih.imp_right .inr

/-- Equal contents are equal data. -/
theorem Memory.ext_of_wf {m n : Memory} (hm : m.wf) (hn : n.wf) (h : ∀ a, m.read a = n.read a) : m = n := by
  have key : ∀ {p q : Memory}, p.wf → (∀ a, p.read a = q.read a) → ∀ c ∈ p, c ∈ q := by
    intro p q hp h c hc
    have hr := Memory.read_of_mem hp hc
    rcases Memory.read_cases q c.1 with hu | hq
    · exact absurd ((hr.symm.trans (h c.1)).trans hu) (hp.2 c hc)
    · rw [← h c.1, hr] at hq
      exact hq
  have nodup : ∀ {p : Memory}, p.wf → p.Nodup := fun hp =>
    hp.1.imp fun {c d} (hlt : c.1 < d.1) (he : c = d) => by simp [he] at hlt
  refine ((List.perm_ext_iff_of_nodup (nodup hm) (nodup hn)).2 fun c =>
    ⟨key hm h c, key hn (fun a => (h a).symm) c⟩).eq_of_pairwise ?_ hm.1 hn.1
  intro c d _ _ hcd hdc
  omega

end Sys2Proof.Machine
end

