-- ==== Sys2Proof/Laws/State.lean ====
section
/-! SUPPORT. For each change of state, each field after it; no later proof unfolds a record update. -/

namespace Sys2Proof.Machine

variable (s : State)

@[simp] theorem State.push_code (v : Nat) : (s.push v).code = s.code := rfl
@[simp] theorem State.push_codeLen (v : Nat) : (s.push v).codeLen = s.codeLen := rfl
@[simp] theorem State.push_cfgCodeLen (v : Nat) : (s.push v).cfgCodeLen = s.cfgCodeLen := rfl
@[simp] theorem State.push_cfgMemSize (v : Nat) : (s.push v).cfgMemSize = s.cfgMemSize := rfl
@[simp] theorem State.push_memSize (v : Nat) : (s.push v).memSize = s.memSize := rfl
@[simp] theorem State.push_cur (v : Nat) : (s.push v).cur = s.cur := rfl
@[simp] theorem State.push_prog (v : Nat) : (s.push v).prog = s.prog := rfl
@[simp] theorem State.push_ip (v : Nat) : (s.push v).ip = s.ip := rfl
@[simp] theorem State.push_stack (v : Nat) : (s.push v).stack = s.stack ++ [v] := rfl
@[simp] theorem State.push_mem (v : Nat) : (s.push v).mem = s.mem := rfl
@[simp] theorem State.push_phase (v : Nat) : (s.push v).phase = s.phase := rfl
@[simp] theorem State.push_fkind (v : Nat) : (s.push v).fkind = s.fkind := rfl
@[simp] theorem State.push_fval (v : Nat) : (s.push v).fval = s.fval := rfl

@[simp] theorem State.setTop_code (v : Nat) : (s.setTop v).code = s.code := rfl
@[simp] theorem State.setTop_codeLen (v : Nat) : (s.setTop v).codeLen = s.codeLen := rfl
@[simp] theorem State.setTop_cfgCodeLen (v : Nat) : (s.setTop v).cfgCodeLen = s.cfgCodeLen := rfl
@[simp] theorem State.setTop_cfgMemSize (v : Nat) : (s.setTop v).cfgMemSize = s.cfgMemSize := rfl
@[simp] theorem State.setTop_memSize (v : Nat) : (s.setTop v).memSize = s.memSize := rfl
@[simp] theorem State.setTop_cur (v : Nat) : (s.setTop v).cur = s.cur := rfl
@[simp] theorem State.setTop_prog (v : Nat) : (s.setTop v).prog = s.prog := rfl
@[simp] theorem State.setTop_ip (v : Nat) : (s.setTop v).ip = s.ip := rfl
@[simp] theorem State.setTop_stack (v : Nat) : (s.setTop v).stack = s.stack.dropLast ++ [v] := rfl
@[simp] theorem State.setTop_mem (v : Nat) : (s.setTop v).mem = s.mem := rfl
@[simp] theorem State.setTop_phase (v : Nat) : (s.setTop v).phase = s.phase := rfl
@[simp] theorem State.setTop_fkind (v : Nat) : (s.setTop v).fkind = s.fkind := rfl
@[simp] theorem State.setTop_fval (v : Nat) : (s.setTop v).fval = s.fval := rfl

@[simp] theorem State.dropTwo_code : s.dropTwo.code = s.code := rfl
@[simp] theorem State.dropTwo_codeLen : s.dropTwo.codeLen = s.codeLen := rfl
@[simp] theorem State.dropTwo_cfgCodeLen : s.dropTwo.cfgCodeLen = s.cfgCodeLen := rfl
@[simp] theorem State.dropTwo_cfgMemSize : s.dropTwo.cfgMemSize = s.cfgMemSize := rfl
@[simp] theorem State.dropTwo_memSize : s.dropTwo.memSize = s.memSize := rfl
@[simp] theorem State.dropTwo_cur : s.dropTwo.cur = s.cur := rfl
@[simp] theorem State.dropTwo_prog : s.dropTwo.prog = s.prog := rfl
@[simp] theorem State.dropTwo_ip : s.dropTwo.ip = s.ip := rfl
@[simp] theorem State.dropTwo_stack : s.dropTwo.stack = s.stack.take (s.sp - 2) := rfl
@[simp] theorem State.dropTwo_mem : s.dropTwo.mem = s.mem := rfl
@[simp] theorem State.dropTwo_phase : s.dropTwo.phase = s.phase := rfl
@[simp] theorem State.dropTwo_fkind : s.dropTwo.fkind = s.fkind := rfl
@[simp] theorem State.dropTwo_fval : s.dropTwo.fval = s.fval := rfl

@[simp] theorem State.storeCell_code (a : Nat) (v : Nat) : (s.storeCell a v).code = s.code := rfl
@[simp] theorem State.storeCell_codeLen (a : Nat) (v : Nat) : (s.storeCell a v).codeLen = s.codeLen := rfl
@[simp] theorem State.storeCell_cfgCodeLen (a : Nat) (v : Nat) : (s.storeCell a v).cfgCodeLen = s.cfgCodeLen := rfl
@[simp] theorem State.storeCell_cfgMemSize (a : Nat) (v : Nat) : (s.storeCell a v).cfgMemSize = s.cfgMemSize := rfl
@[simp] theorem State.storeCell_memSize (a : Nat) (v : Nat) : (s.storeCell a v).memSize = s.memSize := rfl
@[simp] theorem State.storeCell_cur (a : Nat) (v : Nat) : (s.storeCell a v).cur = s.cur := rfl
@[simp] theorem State.storeCell_prog (a : Nat) (v : Nat) : (s.storeCell a v).prog = s.prog := rfl
@[simp] theorem State.storeCell_ip (a : Nat) (v : Nat) : (s.storeCell a v).ip = s.ip := rfl
@[simp] theorem State.storeCell_stack (a : Nat) (v : Nat) : (s.storeCell a v).stack = s.stack := rfl
@[simp] theorem State.storeCell_mem (a : Nat) (v : Nat) : (s.storeCell a v).mem = s.mem.write a v := rfl
@[simp] theorem State.storeCell_phase (a : Nat) (v : Nat) : (s.storeCell a v).phase = s.phase := rfl
@[simp] theorem State.storeCell_fkind (a : Nat) (v : Nat) : (s.storeCell a v).fkind = s.fkind := rfl
@[simp] theorem State.storeCell_fval (a : Nat) (v : Nat) : (s.storeCell a v).fval = s.fval := rfl

@[simp] theorem State.advance_code : s.advance.code = s.code := rfl
@[simp] theorem State.advance_codeLen : s.advance.codeLen = s.codeLen := rfl
@[simp] theorem State.advance_cfgCodeLen : s.advance.cfgCodeLen = s.cfgCodeLen := rfl
@[simp] theorem State.advance_cfgMemSize : s.advance.cfgMemSize = s.cfgMemSize := rfl
@[simp] theorem State.advance_memSize : s.advance.memSize = s.memSize := rfl
@[simp] theorem State.advance_cur : s.advance.cur = s.cur := rfl
@[simp] theorem State.advance_prog : s.advance.prog = s.prog := rfl
@[simp] theorem State.advance_ip : s.advance.ip = s.ip + 1 := rfl
@[simp] theorem State.advance_stack : s.advance.stack = s.stack := rfl
@[simp] theorem State.advance_mem : s.advance.mem = s.mem := rfl
@[simp] theorem State.advance_phase : s.advance.phase = s.phase := rfl
@[simp] theorem State.advance_fkind : s.advance.fkind = s.fkind := rfl
@[simp] theorem State.advance_fval : s.advance.fval = s.fval := rfl

@[simp] theorem State.endRun_code : s.endRun.code = s.code := rfl
@[simp] theorem State.endRun_codeLen : s.endRun.codeLen = s.codeLen := rfl
@[simp] theorem State.endRun_cfgCodeLen : s.endRun.cfgCodeLen = s.cfgCodeLen := rfl
@[simp] theorem State.endRun_cfgMemSize : s.endRun.cfgMemSize = s.cfgMemSize := rfl
@[simp] theorem State.endRun_memSize : s.endRun.memSize = s.memSize := rfl
@[simp] theorem State.endRun_cur : s.endRun.cur = s.cur := rfl
@[simp] theorem State.endRun_prog : s.endRun.prog = s.prog := rfl
@[simp] theorem State.endRun_ip : s.endRun.ip = s.ip := rfl
@[simp] theorem State.endRun_stack : s.endRun.stack = s.stack := rfl
@[simp] theorem State.endRun_mem : s.endRun.mem = s.mem := rfl
@[simp] theorem State.endRun_phase : s.endRun.phase = .done := rfl
@[simp] theorem State.endRun_fkind : s.endRun.fkind = s.fkind := rfl
@[simp] theorem State.endRun_fval : s.endRun.fval = s.fval := rfl

@[simp] theorem State.emit_code (i : Instr) : (s.emit i).code = s.code := rfl
@[simp] theorem State.emit_codeLen (i : Instr) : (s.emit i).codeLen = s.codeLen := rfl
@[simp] theorem State.emit_cfgCodeLen (i : Instr) : (s.emit i).cfgCodeLen = s.cfgCodeLen := rfl
@[simp] theorem State.emit_cfgMemSize (i : Instr) : (s.emit i).cfgMemSize = s.cfgMemSize := rfl
@[simp] theorem State.emit_memSize (i : Instr) : (s.emit i).memSize = s.memSize := rfl
@[simp] theorem State.emit_cur (i : Instr) : (s.emit i).cur = s.cur + i.lengthBytes := rfl
@[simp] theorem State.emit_prog (i : Instr) : (s.emit i).prog = s.prog ++ [i] := rfl
@[simp] theorem State.emit_ip (i : Instr) : (s.emit i).ip = s.ip := rfl
@[simp] theorem State.emit_stack (i : Instr) : (s.emit i).stack = s.stack := rfl
@[simp] theorem State.emit_mem (i : Instr) : (s.emit i).mem = s.mem := rfl
@[simp] theorem State.emit_phase (i : Instr) : (s.emit i).phase = s.phase := rfl
@[simp] theorem State.emit_fkind (i : Instr) : (s.emit i).fkind = s.fkind := rfl
@[simp] theorem State.emit_fval (i : Instr) : (s.emit i).fval = s.fval := rfl

@[simp] theorem State.beginExecute_code : s.beginExecute.code = s.code := rfl
@[simp] theorem State.beginExecute_codeLen : s.beginExecute.codeLen = s.codeLen := rfl
@[simp] theorem State.beginExecute_cfgCodeLen : s.beginExecute.cfgCodeLen = s.cfgCodeLen := rfl
@[simp] theorem State.beginExecute_cfgMemSize : s.beginExecute.cfgMemSize = s.cfgMemSize := rfl
@[simp] theorem State.beginExecute_memSize : s.beginExecute.memSize = s.memSize := rfl
@[simp] theorem State.beginExecute_cur : s.beginExecute.cur = s.cur := rfl
@[simp] theorem State.beginExecute_prog : s.beginExecute.prog = s.prog := rfl
@[simp] theorem State.beginExecute_ip : s.beginExecute.ip = s.ip := rfl
@[simp] theorem State.beginExecute_stack : s.beginExecute.stack = s.stack := rfl
@[simp] theorem State.beginExecute_mem : s.beginExecute.mem = s.mem := rfl
@[simp] theorem State.beginExecute_phase : s.beginExecute.phase = .execute := rfl
@[simp] theorem State.beginExecute_fkind : s.beginExecute.fkind = s.fkind := rfl
@[simp] theorem State.beginExecute_fval : s.beginExecute.fval = s.fval := rfl

@[simp] theorem State.raise_code (k : FaultKind) (n : Nat) : (s.raise k n).code = s.code := rfl
@[simp] theorem State.raise_codeLen (k : FaultKind) (n : Nat) : (s.raise k n).codeLen = s.codeLen := rfl
@[simp] theorem State.raise_cfgCodeLen (k : FaultKind) (n : Nat) : (s.raise k n).cfgCodeLen = s.cfgCodeLen := rfl
@[simp] theorem State.raise_cfgMemSize (k : FaultKind) (n : Nat) : (s.raise k n).cfgMemSize = s.cfgMemSize := rfl
@[simp] theorem State.raise_memSize (k : FaultKind) (n : Nat) : (s.raise k n).memSize = s.memSize := rfl
@[simp] theorem State.raise_cur (k : FaultKind) (n : Nat) : (s.raise k n).cur = s.cur := rfl
@[simp] theorem State.raise_prog (k : FaultKind) (n : Nat) : (s.raise k n).prog = s.prog := rfl
@[simp] theorem State.raise_ip (k : FaultKind) (n : Nat) : (s.raise k n).ip = s.ip := rfl
@[simp] theorem State.raise_stack (k : FaultKind) (n : Nat) : (s.raise k n).stack = s.stack := rfl
@[simp] theorem State.raise_mem (k : FaultKind) (n : Nat) : (s.raise k n).mem = s.mem := rfl
@[simp] theorem State.raise_phase (k : FaultKind) (n : Nat) : (s.raise k n).phase = .fault := rfl
@[simp] theorem State.raise_fkind (k : FaultKind) (n : Nat) : (s.raise k n).fkind = k := rfl
@[simp] theorem State.raise_fval (k : FaultKind) (n : Nat) : (s.raise k n).fval = n := rfl

@[simp] theorem State.applyReset_code : s.applyReset.code = s.code := rfl
@[simp] theorem State.applyReset_codeLen : s.applyReset.codeLen = s.cfgCodeLen := rfl
@[simp] theorem State.applyReset_cfgCodeLen : s.applyReset.cfgCodeLen = s.cfgCodeLen := rfl
@[simp] theorem State.applyReset_cfgMemSize : s.applyReset.cfgMemSize = s.cfgMemSize := rfl
@[simp] theorem State.applyReset_memSize : s.applyReset.memSize = s.cfgMemSize := rfl
@[simp] theorem State.applyReset_cur : s.applyReset.cur = 0 := rfl
@[simp] theorem State.applyReset_prog : s.applyReset.prog = [] := rfl
@[simp] theorem State.applyReset_ip : s.applyReset.ip = 0 := rfl
@[simp] theorem State.applyReset_stack : s.applyReset.stack = [] := rfl
@[simp] theorem State.applyReset_mem : s.applyReset.mem = [] := rfl
@[simp] theorem State.applyReset_phase : s.applyReset.phase = .decode := rfl
@[simp] theorem State.applyReset_fkind : s.applyReset.fkind = .none := rfl
@[simp] theorem State.applyReset_fval : s.applyReset.fval = 0 := rfl

@[simp] theorem State.placeDecoded_code (i : Instr) (bs : List Byte) : (s.placeDecoded i bs).code = bs := rfl
@[simp] theorem State.placeDecoded_codeLen (i : Instr) (bs : List Byte) : (s.placeDecoded i bs).codeLen = bs.length := rfl
@[simp] theorem State.placeDecoded_cfgCodeLen (i : Instr) (bs : List Byte) : (s.placeDecoded i bs).cfgCodeLen = bs.length := rfl
@[simp] theorem State.placeDecoded_cfgMemSize (i : Instr) (bs : List Byte) : (s.placeDecoded i bs).cfgMemSize = s.cfgMemSize := rfl
@[simp] theorem State.placeDecoded_memSize (i : Instr) (bs : List Byte) : (s.placeDecoded i bs).memSize = s.memSize := rfl
@[simp] theorem State.placeDecoded_cur (i : Instr) (bs : List Byte) : (s.placeDecoded i bs).cur = bs.length := rfl
@[simp] theorem State.placeDecoded_prog (i : Instr) (bs : List Byte) : (s.placeDecoded i bs).prog = [i] := rfl
@[simp] theorem State.placeDecoded_ip (i : Instr) (bs : List Byte) : (s.placeDecoded i bs).ip = 0 := rfl
@[simp] theorem State.placeDecoded_stack (i : Instr) (bs : List Byte) : (s.placeDecoded i bs).stack = s.stack := rfl
@[simp] theorem State.placeDecoded_mem (i : Instr) (bs : List Byte) : (s.placeDecoded i bs).mem = s.mem := rfl
@[simp] theorem State.placeDecoded_phase (i : Instr) (bs : List Byte) : (s.placeDecoded i bs).phase = .execute := rfl
@[simp] theorem State.placeDecoded_fkind (i : Instr) (bs : List Byte) : (s.placeDecoded i bs).fkind = s.fkind := rfl
@[simp] theorem State.placeDecoded_fval (i : Instr) (bs : List Byte) : (s.placeDecoded i bs).fval = s.fval := rfl

@[simp] theorem State.placeUndecoded_code (bs : List Byte) : (s.placeUndecoded bs).code = bs := rfl
@[simp] theorem State.placeUndecoded_codeLen (bs : List Byte) : (s.placeUndecoded bs).codeLen = bs.length := rfl
@[simp] theorem State.placeUndecoded_cfgCodeLen (bs : List Byte) : (s.placeUndecoded bs).cfgCodeLen = bs.length := rfl
@[simp] theorem State.placeUndecoded_cfgMemSize (bs : List Byte) : (s.placeUndecoded bs).cfgMemSize = s.cfgMemSize := rfl
@[simp] theorem State.placeUndecoded_memSize (bs : List Byte) : (s.placeUndecoded bs).memSize = s.memSize := rfl
@[simp] theorem State.placeUndecoded_cur (bs : List Byte) : (s.placeUndecoded bs).cur = 0 := rfl
@[simp] theorem State.placeUndecoded_prog (bs : List Byte) : (s.placeUndecoded bs).prog = [] := rfl
@[simp] theorem State.placeUndecoded_ip (bs : List Byte) : (s.placeUndecoded bs).ip = 0 := rfl
@[simp] theorem State.placeUndecoded_stack (bs : List Byte) : (s.placeUndecoded bs).stack = s.stack := rfl
@[simp] theorem State.placeUndecoded_mem (bs : List Byte) : (s.placeUndecoded bs).mem = s.mem := rfl
@[simp] theorem State.placeUndecoded_phase (bs : List Byte) : (s.placeUndecoded bs).phase = .decode := rfl
@[simp] theorem State.placeUndecoded_fkind (bs : List Byte) : (s.placeUndecoded bs).fkind = s.fkind := rfl
@[simp] theorem State.placeUndecoded_fval (bs : List Byte) : (s.placeUndecoded bs).fval = s.fval := rfl

@[simp] theorem State.writeCfgMemSize_code (n : Nat) : (s.writeCfgMemSize n).code = s.code := rfl
@[simp] theorem State.writeCfgMemSize_codeLen (n : Nat) : (s.writeCfgMemSize n).codeLen = s.codeLen := rfl
@[simp] theorem State.writeCfgMemSize_cfgCodeLen (n : Nat) : (s.writeCfgMemSize n).cfgCodeLen = s.cfgCodeLen := rfl
@[simp] theorem State.writeCfgMemSize_cfgMemSize (n : Nat) : (s.writeCfgMemSize n).cfgMemSize = n := rfl
@[simp] theorem State.writeCfgMemSize_memSize (n : Nat) : (s.writeCfgMemSize n).memSize = s.memSize := rfl
@[simp] theorem State.writeCfgMemSize_cur (n : Nat) : (s.writeCfgMemSize n).cur = s.cur := rfl
@[simp] theorem State.writeCfgMemSize_prog (n : Nat) : (s.writeCfgMemSize n).prog = s.prog := rfl
@[simp] theorem State.writeCfgMemSize_ip (n : Nat) : (s.writeCfgMemSize n).ip = s.ip := rfl
@[simp] theorem State.writeCfgMemSize_stack (n : Nat) : (s.writeCfgMemSize n).stack = s.stack := rfl
@[simp] theorem State.writeCfgMemSize_mem (n : Nat) : (s.writeCfgMemSize n).mem = s.mem := rfl
@[simp] theorem State.writeCfgMemSize_phase (n : Nat) : (s.writeCfgMemSize n).phase = s.phase := rfl
@[simp] theorem State.writeCfgMemSize_fkind (n : Nat) : (s.writeCfgMemSize n).fkind = s.fkind := rfl
@[simp] theorem State.writeCfgMemSize_fval (n : Nat) : (s.writeCfgMemSize n).fval = s.fval := rfl

@[simp] theorem State.writeCfgCodeLen_code (n : Nat) : (s.writeCfgCodeLen n).code = s.code := rfl
@[simp] theorem State.writeCfgCodeLen_codeLen (n : Nat) : (s.writeCfgCodeLen n).codeLen = s.codeLen := rfl
@[simp] theorem State.writeCfgCodeLen_cfgCodeLen (n : Nat) : (s.writeCfgCodeLen n).cfgCodeLen = n := rfl
@[simp] theorem State.writeCfgCodeLen_cfgMemSize (n : Nat) : (s.writeCfgCodeLen n).cfgMemSize = s.cfgMemSize := rfl
@[simp] theorem State.writeCfgCodeLen_memSize (n : Nat) : (s.writeCfgCodeLen n).memSize = s.memSize := rfl
@[simp] theorem State.writeCfgCodeLen_cur (n : Nat) : (s.writeCfgCodeLen n).cur = s.cur := rfl
@[simp] theorem State.writeCfgCodeLen_prog (n : Nat) : (s.writeCfgCodeLen n).prog = s.prog := rfl
@[simp] theorem State.writeCfgCodeLen_ip (n : Nat) : (s.writeCfgCodeLen n).ip = s.ip := rfl
@[simp] theorem State.writeCfgCodeLen_stack (n : Nat) : (s.writeCfgCodeLen n).stack = s.stack := rfl
@[simp] theorem State.writeCfgCodeLen_mem (n : Nat) : (s.writeCfgCodeLen n).mem = s.mem := rfl
@[simp] theorem State.writeCfgCodeLen_phase (n : Nat) : (s.writeCfgCodeLen n).phase = s.phase := rfl
@[simp] theorem State.writeCfgCodeLen_fkind (n : Nat) : (s.writeCfgCodeLen n).fkind = s.fkind := rfl
@[simp] theorem State.writeCfgCodeLen_fval (n : Nat) : (s.writeCfgCodeLen n).fval = s.fval := rfl

@[simp] theorem State.placeCode_code (bs : List Byte) : (s.placeCode bs).code = bs := rfl
@[simp] theorem State.placeCode_codeLen (bs : List Byte) : (s.placeCode bs).codeLen = s.codeLen := rfl
@[simp] theorem State.placeCode_cfgCodeLen (bs : List Byte) : (s.placeCode bs).cfgCodeLen = s.cfgCodeLen := rfl
@[simp] theorem State.placeCode_cfgMemSize (bs : List Byte) : (s.placeCode bs).cfgMemSize = s.cfgMemSize := rfl
@[simp] theorem State.placeCode_memSize (bs : List Byte) : (s.placeCode bs).memSize = s.memSize := rfl
@[simp] theorem State.placeCode_cur (bs : List Byte) : (s.placeCode bs).cur = s.cur := rfl
@[simp] theorem State.placeCode_prog (bs : List Byte) : (s.placeCode bs).prog = s.prog := rfl
@[simp] theorem State.placeCode_ip (bs : List Byte) : (s.placeCode bs).ip = s.ip := rfl
@[simp] theorem State.placeCode_stack (bs : List Byte) : (s.placeCode bs).stack = s.stack := rfl
@[simp] theorem State.placeCode_mem (bs : List Byte) : (s.placeCode bs).mem = s.mem := rfl
@[simp] theorem State.placeCode_phase (bs : List Byte) : (s.placeCode bs).phase = s.phase := rfl
@[simp] theorem State.placeCode_fkind (bs : List Byte) : (s.placeCode bs).fkind = s.fkind := rfl
@[simp] theorem State.placeCode_fval (bs : List Byte) : (s.placeCode bs).fval = s.fval := rfl

end Sys2Proof.Machine
end

