-- ==== Sys2Proof/Laws/Operands.lean ====
section
/-! SUPPORT. The operand forms in terms of the stack's list: the top is the last item. -/

namespace Sys2Proof.Machine

theorem State.loadOperand_eq_some {s : State} {a : Nat} :
    s.loadOperand = some a ↔ ∃ xs, s.stack = xs ++ [a] := by
  unfold State.loadOperand State.peek State.sp
  rcases List.eq_nil_or_concat s.stack with h | ⟨xs, x, h⟩
  · simp [h]
  · rw [List.concat_eq_append] at h
    simp [h]

theorem State.loadOperand_eq_none {s : State} : s.loadOperand = none ↔ s.stack = [] := by
  unfold State.loadOperand State.peek State.sp
  rcases List.eq_nil_or_concat s.stack with h | ⟨xs, x, h⟩
  · simp [h]
  · rw [List.concat_eq_append] at h
    simp [h]

theorem State.storeOperands_eq_some {s : State} {a v : Nat} :
    s.storeOperands = some (a, v) ↔ ∃ xs, s.stack = xs ++ [a, v] := by
  unfold State.storeOperands State.peek State.sp
  rcases List.eq_nil_or_concat s.stack with h | ⟨ys, y, h⟩
  · simp [h]
  · rw [List.concat_eq_append] at h
    rcases List.eq_nil_or_concat ys with h' | ⟨zs, z, h'⟩
    · subst h'
      have hne : ∀ xs : List Nat, [y] ≠ xs ++ [a, v] := fun xs hx => by
        have := congrArg List.length hx
        simp at this
      simp [h, hne]
    · rw [List.concat_eq_append] at h'
      subst h'
      have hiff : (∃ xs, zs ++ [z] ++ [y] = xs ++ [a, v]) ↔ z = a ∧ y = v := by
        constructor
        · rintro ⟨xs, hx⟩
          have hx' : zs ++ [z, y] = xs ++ [a, v] := by simpa using hx
          have := (List.append_inj' hx' rfl).2
          simpa using this
        · rintro ⟨rfl, rfl⟩
          exact ⟨zs, by simp⟩
      rw [h, hiff]
      simp

theorem State.storeOperands_eq_none {s : State} : s.storeOperands = none ↔ s.sp < 2 := by
  constructor
  · intro h
    by_contra hlt
    obtain ⟨xs, a, v, hx⟩ : ∃ xs a v, s.stack = xs ++ [a, v] := by
      unfold State.sp at hlt
      rcases List.eq_nil_or_concat s.stack with hs | ⟨ys, y, hs⟩
      · simp [hs] at hlt
      · rcases List.eq_nil_or_concat ys with hy | ⟨zs, z, hy⟩
        · simp [hs, hy] at hlt
        · exact ⟨zs, z, y, by simp [hs, hy]⟩
    rw [State.storeOperands_eq_some.2 ⟨xs, hx⟩] at h
    cases h
  · intro h
    have h1 : s.peek 1 = none := by
      unfold State.peek
      rw [if_neg (by omega)]
    simp [State.storeOperands, h1]

theorem State.setTop_of_stack {s : State} {xs : List Nat} {x : Nat} (h : s.stack = xs ++ [x]) (v : Nat) :
    (s.setTop v).stack = xs ++ [v] := by simp [h]

theorem State.dropTwo_of_stack {s : State} {xs : List Nat} {a v : Nat} (h : s.stack = xs ++ [a, v]) :
    s.dropTwo.stack = xs := by simp [State.sp, h]

theorem State.inRange_iff {s : State} {a : Nat} : s.inRange a = true ↔ a < s.memSize := by
  simp [State.inRange]

end Sys2Proof.Machine
end

