-- ==== Sys2Proof/Laws/Step.lean ====
section
/-! SUPPORT. What each meaning, each phase's step and the step itself can answer: the inversion lemmas that later proofs
cite instead of unfolding. -/

namespace Sys2Proof.Machine

variable {s t : State}

theorem execReadMem_next (h : execReadMem s = .next t) :
    (s.loadOperand = none ∧ t = s.raise .stackUnderflow 0) ∨
    (∃ a, s.loadOperand = some a ∧ a < s.memSize ∧ t = (s.setTop (s.mem.read a)).advance) ∨
    (∃ a, s.loadOperand = some a ∧ s.memSize ≤ a ∧ t = s.raise .addressOutOfRange a) := by
  unfold execReadMem at h
  cases ho : s.loadOperand with
  | none => simpa [ho, eq_comm] using h
  | some a =>
    by_cases hr : a < s.memSize
    · have : s.inRange a = true := State.inRange_iff.2 hr
      simp only [ho, this, if_true, Host.Outcome.next.injEq] at h
      exact .inr (.inl ⟨a, rfl, hr, h.symm⟩)
    · have : s.inRange a = false := by simp [State.inRange, hr]
      simp only [ho, this, Bool.false_eq_true, if_false, Host.Outcome.next.injEq] at h
      exact .inr (.inr ⟨a, rfl, by omega, h.symm⟩)

theorem execWriteMem_next (h : execWriteMem s = .next t) :
    (s.storeOperands = none ∧ t = s.raise .stackUnderflow 0) ∨
    (∃ a v, s.storeOperands = some (a, v) ∧ a < s.memSize ∧ t = (s.storeCell a v).dropTwo.advance) ∨
    (∃ a v, s.storeOperands = some (a, v) ∧ s.memSize ≤ a ∧ t = s.raise .addressOutOfRange a) := by
  unfold execWriteMem at h
  cases ho : s.storeOperands with
  | none => simpa [ho, eq_comm] using h
  | some p =>
    obtain ⟨a, v⟩ := p
    by_cases hr : a < s.memSize
    · have : s.inRange a = true := State.inRange_iff.2 hr
      simp only [ho, this, if_true, Host.Outcome.next.injEq] at h
      exact .inr (.inl ⟨a, v, rfl, hr, h.symm⟩)
    · have : s.inRange a = false := by simp [State.inRange, hr]
      simp only [ho, this, Bool.false_eq_true, if_false, Host.Outcome.next.injEq] at h
      exact .inr (.inr ⟨a, v, rfl, by omega, h.symm⟩)

/-- Everything an instruction can do: push the constant, fault, replace the top by a cell, or store a cell. -/
theorem exec_next {i : Instr} (h : exec i s = .next t) :
    (∃ b, i = .loadConst b ∧ t = (s.push b).advance) ∨
    (i = .readMem ∧ ∃ a, s.loadOperand = some a ∧ a < s.memSize ∧ t = (s.setTop (s.mem.read a)).advance) ∨
    (i = .writeMem ∧ ∃ a v, s.storeOperands = some (a, v) ∧ a < s.memSize ∧
      t = (s.storeCell a v).dropTwo.advance) ∨
    (i = .le ∧ t = s.raise .unimplementedOpcode 0) ∨
    (i = .readMem ∧ s.loadOperand = none ∧ t = s.raise .stackUnderflow 0) ∨
    (i = .writeMem ∧ s.storeOperands = none ∧ t = s.raise .stackUnderflow 0) ∨
    (∃ a, s.memSize ≤ a ∧ t = s.raise .addressOutOfRange a ∧
      ((i = .readMem ∧ s.loadOperand = some a) ∨ (i = .writeMem ∧ ∃ v, s.storeOperands = some (a, v)))) := by
  cases i with
  | loadConst b => exact .inl ⟨b, rfl, (Host.Outcome.next.inj h).symm⟩
  | le => exact .inr (.inr (.inr (.inl ⟨rfl, (Host.Outcome.next.inj h).symm⟩)))
  | writeMem =>
    rcases execWriteMem_next h with h | h | ⟨a, v, ho, hr, ht⟩
    · exact .inr (.inr (.inr (.inr (.inr (.inl ⟨rfl, h⟩)))))
    · exact .inr (.inr (.inl ⟨rfl, h⟩))
    · exact .inr (.inr (.inr (.inr (.inr (.inr ⟨a, hr, ht, .inr ⟨rfl, v, ho⟩⟩)))))
  | readMem =>
    rcases execReadMem_next h with h | h | ⟨a, ho, hr, ht⟩
    · exact .inr (.inr (.inr (.inr (.inl ⟨rfl, h⟩))))
    · exact .inr (.inl ⟨rfl, h⟩)
    · exact .inr (.inr (.inr (.inr (.inr (.inr ⟨a, hr, ht, .inl ⟨rfl, ho⟩⟩)))))

/-- Everything a decode step can do. -/
theorem decodeStep_next (h : decodeStep s = .next t) :
    (s.cur = s.codeLen ∧ t = s.beginExecute) ∨
    (s.cur ≠ s.codeLen ∧
      ((∃ i rest, decodeFirst s.liveBytes = .instr i rest ∧ t = s.emit i) ∨
       (decodeFirst s.liveBytes = .truncatedStream ∧ t = s.raise .truncatedStream 0) ∨
       (∃ a, decodeFirst s.liveBytes = .unknownOpcode a ∧ t = s.raise .unknownOpcode a.toNat))) := by
  unfold decodeStep at h
  by_cases hc : s.cur = s.codeLen
  · exact .inl ⟨hc, by simpa [hc, eq_comm] using h⟩
  · rw [if_neg hc] at h
    refine .inr ⟨hc, ?_⟩
    cases hd : decodeFirst s.liveBytes with
    | instr i rest => exact .inl ⟨i, rest, rfl, by simpa [hd, eq_comm] using h⟩
    | endOfBuffer => simp [hd] at h
    | truncatedStream => exact .inr (.inl ⟨rfl, by simpa [hd, eq_comm] using h⟩)
    | unknownOpcode a => exact .inr (.inr ⟨a, rfl, by simpa [hd, eq_comm] using h⟩)

/-- Everything an execute step can do. -/
theorem executeStep_next (h : executeStep s = .next t) :
    (s.ip = s.progLen ∧ t = s.endRun) ∨
    (s.ip < s.progLen ∧ ∃ i, s.prog[s.ip]? = some i ∧ exec i s = .next t) := by
  unfold executeStep at h
  by_cases hd : s.ip = s.progLen
  · exact .inl ⟨hd, by simpa [State.programDone, hd, eq_comm] using h⟩
  · have hp : s.programDone = false := by simp [State.programDone, hd]
    cases hf : s.fetchEntry with
    | none => simp [hp, hf] at h
    | some i =>
      have hi : s.prog[s.ip]? = some i := hf
      obtain ⟨hlt, -⟩ := List.getElem?_eq_some_iff.1 hi
      exact .inr ⟨hlt, i, hi, by simpa [hp, hf] using h⟩

theorem State.configProblem_eq_none : s.configProblem = none ↔ 0 < s.memSize ∧ s.codeLen ≤ s.code.length := by
  unfold State.configProblem
  by_cases h1 : s.memSize = 0
  · simp [h1]
  · by_cases h2 : s.code.length < s.codeLen
    · simp [h1, h2]
    · simp [h1, h2]
      omega

/-- A step with a next state is a decode step or an execute step, under a legal configuration. -/
theorem step_next (h : step s = .next t) :
    s.configProblem = none ∧
    ((s.phase = .decode ∧ decodeStep s = .next t) ∨ (s.phase = .execute ∧ executeStep s = .next t)) := by
  unfold step at h
  cases hp : s.phase <;> cases hc : s.configProblem <;> simp_all

theorem step_of_decode (hp : s.phase = .decode) (hc : s.configProblem = none) : step s = decodeStep s := by
  simp [step, hp, hc]

theorem step_of_execute (hp : s.phase = .execute) (hc : s.configProblem = none) : step s = executeStep s := by
  simp [step, hp, hc]

theorem executeStep_of_entry {i : Instr} (hi : s.prog[s.ip]? = some i) : executeStep s = exec i s := by
  obtain ⟨hlt, -⟩ := List.getElem?_eq_some_iff.1 hi
  have hp : s.programDone = false := decide_eq_false (show s.ip ≠ s.progLen from hlt.ne)
  simp [executeStep, hp, State.fetchEntry, hi]

end Sys2Proof.Machine
end

