-- ==== Sys2Proof/Laws/HostPort.lean ====
section
/-! SUPPORT. What each of the host's moves can answer. -/

namespace Sys2Proof.Machine

variable {s t : State}

/-- A boot with a next state had a legal configuration, and is the reset of the loaded core. -/
theorem hostBoot_next {bytes : List Byte} {codeLen memSize : Nat}
    (h : hostBoot bytes codeLen memSize s = .next t) :
    0 < memSize ∧ codeLen ≤ bytes.length ∧
      t = (((s.placeCode bytes).writeCfgCodeLen codeLen).writeCfgMemSize memSize).applyReset := by
  simp only [hostBoot] at h
  split at h
  · cases h
  · next hc =>
    obtain ⟨hm, hl⟩ := State.configProblem_eq_none.1 hc
    exact ⟨hm, hl, (Host.Outcome.next.inj h).symm⟩

theorem hostWriteCfgMemSize_eq_some {n : Nat} :
    hostWriteCfgMemSize s n = some t ↔ s.terminal = true ∧ s.writeCfgMemSize n = t := by
  simp [hostWriteCfgMemSize]

theorem hostWriteCfgCodeLen_eq_some {n : Nat} :
    hostWriteCfgCodeLen s n = some t ↔ s.terminal = true ∧ s.writeCfgCodeLen n = t := by
  simp [hostWriteCfgCodeLen]

end Sys2Proof.Machine
end

