-- ==== Sys2Proof/Laws/PerInstr.lean ====
section
/-! SUPPORT. Statements made per instruction, one lemma per constructor. -/

namespace Sys2Proof.Laws

/-- The encoding of an instruction has the instruction's length (spec/30_encoding.md R47). -/
def EncodeLength.Statement (i : Instr) : Prop := (encode i).length = i.lengthBytes

theorem EncodeLength.loadConst (b : Nat) : EncodeLength.Statement (.loadConst b) := rfl

theorem EncodeLength.le : EncodeLength.Statement .le := rfl

theorem EncodeLength.writeMem : EncodeLength.Statement .writeMem := rfl

theorem EncodeLength.readMem : EncodeLength.Statement .readMem := rfl

end Sys2Proof.Laws
end

