-- ==== Sys2Proof/Laws/Runs.lean ====
section
/-! SUPPORT. Runs of several steps: one step first, and a run after a run. -/

namespace Sys2Proof.Machine

@[simp] theorem runFor_zero (s : State) : runFor 0 s = .next s := rfl

theorem runFor_succ {s t : State} (h : step s = .next t) (n : Nat) : runFor (n + 1) s = runFor n t := by
  simp only [runFor, h]

theorem runFor_add {n : Nat} {s t : State} (h : runFor n s = .next t) (m : Nat) :
    runFor (n + m) s = runFor m t := by
  induction n generalizing s with
  | zero =>
    cases h
    simp
  | succ n ih =>
    rw [Nat.succ_add]
    simp only [runFor] at h ⊢
    split at h
    · exact ih h
    · cases h
    · cases h

/-- `runFor` is the host's `Host.Core.run` of the core. -/
theorem runFor_eq_core_run (n : Nat) (s : State) : runFor n s = Host.Core.run Sys2Proof.core n s := by
  induction n generalizing s with
  | zero => rfl
  | succ n ih =>
    cases h : step s with
    | next t =>
      have hc : Sys2Proof.core.step s = .next t := h
      simpa only [runFor, Host.Core.run, h, hc] using ih t
    | fault r =>
      have hc : Sys2Proof.core.step s = .fault r := h
      simp only [runFor, Host.Core.run, h, hc]
      rfl
    | refused r =>
      have hc : Sys2Proof.core.step s = .refused r := h
      simp only [runFor, Host.Core.run, h, hc]
      rfl

end Sys2Proof.Machine
end

