-- ==== Sys2Proof/Tests/Slice0.lean ====
section
/-! SUPPORT. Tests of single steps and of decoding, with expected results from spec/95_test_vectors.md (S<n>, V<n>, P<n>)
or worked by hand from the rule named; and, for every statement with hypotheses, a witness that meets them. -/

namespace Sys2Proof.Tests

open Sys2Proof.Machine

/-! ### WellFormed -/

/-- An operand of 11 bits is refused, the largest of 10 bits is not (R50). -/
theorem test_wellFormed_operand :
    (Instr.loadConst 1024).wellFormed = false ∧ (Instr.loadConst 1023).wellFormed = true := by decide

/-! ### Decoding and encoding -/

/-- S1, V3 to V10. -/
theorem test_decode_loadConst :
    decodeFirst [0x4E, 0x01] = .instr (.loadConst 5) [] ∧ decodeFirst [0xCE, 0xFF] = .instr (.loadConst 1023) [] ∧
    decodeFirst [0x4E, 0x00] = .instr (.loadConst 1) [] ∧ decodeFirst [0x8E, 0x00] = .instr (.loadConst 2) [] ∧
    decodeFirst [0x0E, 0x01] = .instr (.loadConst 4) [] ∧ decodeFirst [0x0E, 0x80] = .instr (.loadConst 512) [] ∧
    decodeFirst [0x0E, 0x1B] = .instr (.loadConst 108) [] := by decide

/-- S2: LE, WRITE_MEM, READ_MEM, the next byte untouched. -/
theorem test_decode_oneByte :
    decodeFirst [0x0C, 0x0E] = .instr .le [0x0E] ∧ decodeFirst [0x1B] = .instr .writeMem [] ∧
    decodeFirst [0x26] = .instr .readMem [] := by decide

/-- V16, V28, S9, V20, V23 to V25. -/
theorem test_decode_faults :
    decodeFirst [0x01] = .truncatedStream ∧ decodeFirst [0x4C] = .truncatedStream ∧
    decodeFirst [0x01, 0x00] = .unknownOpcode 1 ∧ decodeFirst [0xFF, 0xFF] = .unknownOpcode 63 ∧
    decodeFirst [0x4C, 0x00] = .unknownOpcode 12 ∧ decodeFirst [0x5B, 0x00] = .unknownOpcode 27 ∧
    decodeFirst [0xA6, 0x12] = .unknownOpcode 38 := by decide

/-- V1, V11, V12, V17, V26. -/
theorem test_decodeProgram :
    decodeProgram [] = .ok [] ∧ decodeProgram [0x0E, 0x0C, 0x0C] = .ok [.loadConst 48, .le] ∧
    decodeProgram [0x0C, 0x4E, 0x01] = .ok [.le, .loadConst 5] ∧
    decodeProgram [0x0C, 0x0E] = .truncatedStream 1 [.le] ∧
    decodeProgram [0x4E, 0x01, 0x0D, 0x00] = .unknownOpcode 2 13 [.loadConst 5] := by decide

/-- The encoder vectors of 95_test_vectors.md section 2. -/
theorem test_encode :
    encode (.loadConst 99) = [0xCE, 0x18] ∧ encode (.loadConst 904) = [0x0E, 0xE2] ∧
    encodeConst 70000 = [0x0E, 0x5C] ∧ encodeConst (-1) = [0xCE, 0xFF] ∧ encodeConst (-1024) = [0x0E, 0x00] ∧
    encodeProgram [.le, .writeMem, .readMem] = [0x0C, 0x1B, 0x26] := by decide

/-- The rows of spec/opcode_table.json, the operand bits zero. -/
theorem test_decodeTableWord :
    decodeTableWord 16 0x000E = some (.loadConst 0) ∧ decodeTableWord 8 0x0C = some .le ∧
    decodeTableWord 8 0x1B = some .writeMem ∧ decodeTableWord 8 0x26 = some .readMem := by decide

/-! ### Single steps -/

/-- The next state of an outcome. -/
def nextOf : Host.Outcome State Fault Refusal → Option State
  | .next t => some t
  | .fault _ => none
  | .refused _ => none

/-- A state in phase EXECUTE at the head of a decoded program, with a stack and a memory. -/
def runState (p : List Instr) (stack : List Nat) (mem : Memory) (memSize : Nat) : State :=
  { State.reset with
    code := encodeProgram p, codeLen := (encodeProgram p).length, cur := (encodeProgram p).length,
    prog := p, stack := stack, mem := mem, memSize := memSize, phase := .execute }

/-- A state in phase DECODE with `cur` bytes of the buffer consumed. -/
def codeState (bytes : List Byte) (cur : Nat) : State :=
  { State.reset with code := bytes, codeLen := bytes.length, cur := cur }

/-- The example of R78: stack [7], LOAD_CONST 5 gives [7, 5] and IP + 1. -/
theorem test_loadConst_pushes :
    (nextOf (step (runState [.loadConst 5] [7] [] 1024))).map (fun t => (t.stack, t.ip)) = some ([7, 5], 1) := by decide

/-- The example of R81: MEM[10] = 99, stack [10] gives [99]. -/
theorem test_readMem_replaces_top :
    (nextOf (step (runState [.readMem] [3, 10] [(10, 99)] 1024))).map (fun t => (t.stack, t.mem)) =
      some ([3, 99], [(10, 99)]) := by decide

/-- V33: `addr = MEM_SIZE` faults and the address stays on the stack. -/
theorem test_readMem_out_of_range :
    (nextOf (step (runState [.readMem] [1023] [] 1023))).map
      (fun t => (t.phase, t.fkind, t.fval, t.stack)) = some (.fault, .addressOutOfRange, 1023, [1023]) := by decide

/-- S4: the value is on top, the address below it. -/
theorem test_writeMem_order :
    (nextOf (step (runState [.writeMem] [10, 99] [(4, 7)] 1024))).map (fun t => (t.stack, t.mem, t.ip)) =
      some ([], [(4, 7), (10, 99)], 1) := by decide

/-- V35: underflow beats range, and the one item stays. -/
theorem test_writeMem_underflow_first :
    (nextOf (step (runState [.writeMem] [1023] [] 16))).map (fun t => (t.fkind, t.fval, t.stack, t.ip)) =
      some (.stackUnderflow, 0, [1023], 0) := by decide

/-- The example of R85: stack [1, 2], LE gives FAULT, the stack and IP as they were. -/
theorem test_le_faults :
    (nextOf (step (runState [.le] [1, 2] [] 1024))).map (fun t => (t.phase, t.fkind, t.stack, t.ip)) =
      some (.fault, .unimplementedOpcode, [1, 2], 0) := by decide

/-- Storing 0 leaves nothing listed: equal memories are equal data (R83, "storing 0 writes 0"). -/
theorem test_write_zero_unlists : Memory.write [(5, 1), (7, 2)] 5 0 = [(7, 2)] := by decide

/-- V38, second decode step: the fault at offset 1, the LE never run. -/
theorem test_decode_step_truncated :
    (nextOf (step (codeState [0x0C, 0x4E] 1))).map (fun t => (t.phase, t.fkind.code, t.cur, t.fval)) =
      some (.fault, 2, 1, 0) := by decide

/-- A placed word is the next thing to run: READ_MEM on the empty reset stack (V31). -/
theorem test_withFetchWord_runs :
    (nextOf (step (State.reset.withFetchWord 8 0x26))).map (fun t => (t.phase, t.fkind, t.ip)) =
      some (.fault, .stackUnderflow, 0) := by decide

/-- From reset with nothing loaded the first step begins the execute phase (V37, R65). -/
theorem test_reset_first_step : step State.reset = .next { State.reset with phase := .execute } := rfl

/-! ### Witnesses: states and operands that meet a statement's hypotheses -/

theorem witness_FirstByteClassification :
    (0xCE#8 = 0x0E#8 ∨ 0xCE#8 = 0x4E#8 ∨ 0xCE#8 = 0x8E#8 ∨ 0xCE#8 = 0xCE#8) ∧
    ¬ OneByteOpcode 0x4C#8 ∧ ¬ (0x4C#8 = 0x0E#8 ∨ 0x4C#8 = 0x4E#8 ∨ 0x4C#8 = 0x8E#8 ∨ 0x4C#8 = 0xCE#8) := by decide

theorem witness_LookAlikeBytesAreUnknown :
    (0xCC#8 = 0x4C#8 ∨ 0xCC#8 = 0x8C#8 ∨ 0xCC#8 = 0xCC#8) ∧
    (0x5B#8 = 0x5B#8 ∨ 0x5B#8 = 0x9B#8 ∨ 0x5B#8 = 0xDB#8) ∧
    (0xA6#8 = 0x66#8 ∨ 0xA6#8 = 0xA6#8 ∨ 0xA6#8 = 0xE6#8) := by decide

theorem witness_DecodeOfEncodeIsIdentity :
    (Instr.loadConst 1023).wellFormed = true ∧ Instr.le.wellFormed = true ∧ Instr.writeMem.wellFormed = true ∧
    Instr.readMem.wellFormed = true := by decide

theorem witness_EncodeOfDecodeIsIdentity : decodeFirst [0xCE, 0xFF, 0x26] = .instr (.loadConst 1023) [0x26] := by decide

theorem witness_ProgramRoundTrip :
    (∀ i ∈ [Instr.loadConst 0, Instr.loadConst 1023, Instr.le, Instr.writeMem, Instr.readMem], i.wellFormed = true) ∧
    decodeProgram [0x26, 0x0C, 0x1B] = .ok [.readMem, .le, .writeMem] := by decide

theorem witness_FormatsNeverCollide :
    (∀ i ∈ [Instr.loadConst 1023, Instr.le], i.wellFormed = true) ∧
    encodeProgram [Instr.loadConst 1023, Instr.le] = encodeProgram [Instr.loadConst 1023, Instr.le] ∧
    1023 ≤ 1023 := by decide

theorem witness_DecodeStepOneByteOpcode :
    ∃ (s : State) (b : Byte) (i : Instr), s.phase = .decode ∧ s.ConfigLegal ∧ s.cur < s.codeLen ∧
      s.code[s.cur]? = some b ∧
      (b = 0x0C#8 ∧ i = .le ∨ b = 0x1B#8 ∧ i = .writeMem ∨ b = 0x26#8 ∧ i = .readMem) :=
  ⟨codeState [0x0C, 0x26] 1, 0x26, .readMem, by decide⟩

theorem witness_DecodeStepTruncatedWord :
    ∃ (s : State) (b : Byte), s.phase = .decode ∧ s.ConfigLegal ∧ s.cur + 1 = s.codeLen ∧
      s.code[s.cur]? = some b ∧ ¬ OneByteOpcode b :=
  ⟨codeState [0x0C, 0x0E] 1, 0x0E, by decide⟩

theorem witness_DecodeStepUnknownWord :
    ∃ (s : State) (lo hi : Byte), s.phase = .decode ∧ s.ConfigLegal ∧ s.cur + 2 ≤ s.codeLen ∧
      s.code[s.cur]? = some lo ∧ s.code[s.cur + 1]? = some hi ∧ ¬ OneByteOpcode lo ∧
      (lo.toNat + 256 * hi.toNat) % 64 ≠ 14 :=
  ⟨codeState [0x0D, 0x00] 0, 0x0D, 0x00, by decide⟩

theorem witness_DecodeStepLoadConst :
    (∃ (s : State) (lo hi : Byte), s.phase = .decode ∧ s.ConfigLegal ∧ s.cur + 2 ≤ s.codeLen ∧
      s.code[s.cur]? = some lo ∧ s.code[s.cur + 1]? = some hi ∧ (lo.toNat + 256 * hi.toNat) % 64 = 14) ∧
    1023 ≤ 1023 :=
  ⟨⟨codeState [0xCE, 0xFF] 0, 0xCE, 0xFF, by decide⟩, le_refl _⟩

/-- A legal boot, and the state it gives. -/
def booted (bytes : List Byte) (memSize : Nat) : State :=
  { State.reset with
    code := bytes, codeLen := bytes.length, cfgCodeLen := bytes.length, cfgMemSize := memSize, memSize := memSize }

theorem boot_next : hostBoot [0x0C] 1 1024 State.reset = .next (booted [0x0C] 1024) := rfl

theorem reachable_boot : Reachable (booted [0x0C] 1024) := .booted boot_next

theorem reachable_empty : Reachable (booted [] 1024) :=
  .booted (show hostBoot [] 0 1024 State.reset = .next (booted [] 1024) from rfl)

theorem reachable_execute : Reachable { booted [] 1024 with phase := .execute } := .stepped reachable_empty rfl

theorem reachable_done : Reachable { booted [] 1024 with phase := .done } := .stepped reachable_execute rfl

theorem reachable_truncated :
    Reachable { booted [0x4E] 1024 with phase := .fault, fkind := .truncatedStream } :=
  .stepped (.booted (show hostBoot [0x4E] 1 1024 State.reset = .next (booted [0x4E] 1024) from rfl)) rfl

theorem witness_DecodePhaseEndsAtCodeLen :
    (∃ s : State, s.phase = .decode ∧ s.ConfigLegal ∧ s.cur = s.codeLen) ∧
    (∃ s : State, Reachable s ∧ s.phase = .decode ∧ s.cur = s.codeLen) ∧
    (∃ s : State, hostBoot [] 0 1 State.reset = .next s) :=
  ⟨⟨codeState [0x26] 1, by decide⟩, ⟨_, reachable_empty, rfl, rfl⟩, ⟨_, rfl⟩⟩

theorem witness_DecodingTouchesNoData :
    (∃ s t : State, s.phase = .decode ∧ step s = .next t) ∧
    (∃ s : State, Reachable s ∧ (s.fkind = .unknownOpcode ∨ s.fkind = .truncatedStream)) :=
  ⟨⟨codeState [0x26] 0, _, rfl, rfl⟩, ⟨_, reachable_truncated, .inr rfl⟩⟩

/-- The smallest and the largest operand of 10 bits. -/
theorem witness_LoadConstPushesItsOperand : 0 ≤ 1023 ∧ 1023 ≤ 1023 := by decide

/-- The last cell and the first address that is none. -/
theorem witness_ReadMemReplacesAddressByCell :
    (∃ (s : State) (xs : List Nat) (addr : Nat), s.stack = xs ++ [addr] ∧ addr < s.memSize) ∧
    (∃ s : State, s.stack = []) ∧
    (∃ (s : State) (xs : List Nat) (addr : Nat), s.stack = xs ++ [addr] ∧ s.memSize ≤ addr) :=
  ⟨⟨runState [] [7, 15] [] 16, [7], 15, by decide⟩, ⟨State.reset, rfl⟩, ⟨runState [] [16] [] 16, [], 16, by decide⟩⟩

theorem witness_WriteMemStoresTopBelow :
    (∃ (s : State) (xs : List Nat) (addr value : Nat), s.stack = xs ++ [addr, value] ∧ addr < s.memSize) ∧
    (∃ s : State, s.stack.length < 2) ∧
    (∃ (s : State) (xs : List Nat) (addr value : Nat), s.stack = xs ++ [addr, value] ∧ s.memSize ≤ addr) :=
  ⟨⟨runState [] [3, 15, 9] [] 16, [3], 15, 9, by decide⟩, ⟨runState [] [5] [] 16, by decide⟩,
    ⟨runState [] [3, 600, 4] [] 512, [3], 600, 4, by decide⟩⟩

theorem witness_LeAlwaysRaisesUnimplemented :
    ∃ s t : State, step s = .next t ∧ t.phase = .fault ∧ t.fkind = .unimplementedOpcode :=
  ⟨runState [.le] [] [] 1024, _, rfl, rfl, rfl⟩

theorem witness_NonStoringFormsFrame :
    (∃ s t : State, Instr.loadConst 5 ≠ .writeMem ∧ exec (.loadConst 5) s = .next t) ∧
    (∃ s t : State, Instr.readMem ≠ .writeMem ∧ exec .readMem s = .next t) ∧
    (∃ s t : State, Instr.le ≠ .writeMem ∧ exec .le s = .next t) :=
  ⟨⟨State.reset, _, by decide, rfl⟩, ⟨runState [] [3] [] 16, _, by decide, rfl⟩, ⟨State.reset, _, by decide, rfl⟩⟩

theorem witness_WriteMemFrame :
    (∃ s t : State, exec .writeMem s = .next t ∧ s.storeOperands = some (10, 99)) ∧
    (∃ s t : State, exec .writeMem s = .next t ∧ s.storeOperands = none) :=
  ⟨⟨runState [] [10, 99] [] 16, _, rfl, by decide⟩, ⟨runState [] [10] [] 16, _, rfl, by decide⟩⟩

theorem witness_ReadSeesLatestWrite :
    ∃ (s t u : State) (xs ys : List Nat) (a v c : Nat), s.stack = xs ++ [a, v] ∧ a < s.memSize ∧
      exec .writeMem s = .next t ∧ u.mem = t.mem ∧ u.memSize = s.memSize ∧ u.stack = ys ++ [c] ∧ c < s.memSize :=
  ⟨runState [] [10, 99] [] 16, _, runState [] [10] [(10, 99)] 16, [], [], 10, 99, 10, by decide, by decide, rfl,
    rfl, rfl, rfl, by decide⟩

theorem witness_StepRunsFetchedInstruction :
    (∃ (s : State) (i : Instr), s.phase = .execute ∧ s.ConfigLegal ∧ s.prog[s.ip]? = some i) ∧
    (∃ (s : State) (i : Instr) (rest : List Byte), s.phase = .decode ∧ s.ConfigLegal ∧
      decodeFirst ((s.code.take s.codeLen).drop s.cur) = .instr i rest) :=
  ⟨⟨runState [.le] [] [] 16, .le, by decide⟩, ⟨codeState [0x4E, 0x01, 0x0C] 0, .loadConst 5, [0x0C], by decide⟩⟩

theorem witness_PlacedWordIsRunNext :
    ∃ (s : State) (nbits w : Nat) (i : Instr), 0 < s.memSize ∧ decodeTableWord nbits w = some i :=
  ⟨State.reset, 16, 0xFFCE, .loadConst 1023, by decide⟩

theorem witness_RunEndsByExhaustion :
    (∃ s : State, s.phase = .execute ∧ s.ConfigLegal ∧ s.ip = s.progLen) ∧
    (∃ s t : State, step s = .next t ∧ t.phase = .done) ∧
    (∃ s : State, Reachable s ∧ s.phase = .execute ∧ s.prog = []) :=
  ⟨⟨runState [] [1] [] 16, by decide⟩, ⟨runState [] [1] [] 16, _, rfl, rfl⟩, ⟨_, reachable_execute, rfl, rfl⟩⟩

/-- A step of each legal transition of R21, and a state in each terminal phase. -/
theorem witness_PhaseTransitions :
    (∃ t, step (codeState [0x26] 0) = .next t ∧ t.phase = .decode) ∧
    (∃ t, step (codeState [0x26] 1) = .next t ∧ t.phase = .execute) ∧
    (∃ t, step (codeState [0x4E] 0) = .next t ∧ t.phase = .fault) ∧
    (∃ t, step (runState [.loadConst 1] [] [] 16) = .next t ∧ t.phase = .execute) ∧
    (∃ t, step (runState [] [] [] 16) = .next t ∧ t.phase = .done) ∧
    (∃ t, step (runState [.le] [] [] 16) = .next t ∧ t.phase = .fault) ∧
    (∃ s : State, s.phase = .done) ∧ (∃ s : State, s.phase = .fault) :=
  ⟨⟨_, rfl, rfl⟩, ⟨_, rfl, rfl⟩, ⟨_, rfl, rfl⟩, ⟨_, rfl, rfl⟩, ⟨_, rfl, rfl⟩, ⟨_, rfl, rfl⟩,
    ⟨{ State.reset with phase := .done }, rfl⟩, ⟨{ State.reset with phase := .fault }, rfl⟩⟩

/-- An execute step that completes and one that faults; a decode step that appends and one that ends the phase. -/
theorem witness_CountersMoveForward :
    (∃ s t : State, step s = .next t ∧ s.phase = .execute ∧ t.phase = .execute) ∧
    (∃ s t : State, step s = .next t ∧ ¬ (s.phase = .execute ∧ t.phase = .execute)) ∧
    (∃ s t : State, step s = .next t ∧ s.phase = .decode ∧ t.phase = .decode) ∧
    (∃ s t : State, step s = .next t ∧ ¬ (s.phase = .decode ∧ t.phase = .decode)) :=
  ⟨⟨runState [.loadConst 1] [] [] 16, _, rfl, rfl, rfl⟩, ⟨runState [.le] [] [] 16, _, rfl, by decide⟩,
    ⟨codeState [0x26] 0, _, rfl, rfl, rfl⟩, ⟨codeState [0x26] 1, _, rfl, by decide⟩⟩

theorem witness_StoresNeverReachCode :
    ∃ s t : State, step s = .next t ∧ s.phase = .execute ∧ t.mem ≠ s.mem :=
  ⟨runState [.writeMem] [10, 99] [] 16, _, rfl, rfl, by decide⟩

/-- A fault of each of the five kinds. -/
theorem witness_EveryFaultHasItsCause :
    (∃ s t : State, step s = .next t ∧ t.phase = .fault ∧ t.fkind = .unknownOpcode) ∧
    (∃ s t : State, step s = .next t ∧ t.phase = .fault ∧ t.fkind = .truncatedStream) ∧
    (∃ s t : State, step s = .next t ∧ t.phase = .fault ∧ t.fkind = .stackUnderflow) ∧
    (∃ s t : State, step s = .next t ∧ t.phase = .fault ∧ t.fkind = .addressOutOfRange) ∧
    (∃ s t : State, step s = .next t ∧ t.phase = .fault ∧ t.fkind = .unimplementedOpcode) :=
  ⟨⟨codeState [0x4C, 0x00] 0, _, rfl, rfl, rfl⟩, ⟨codeState [0x4C] 0, _, rfl, rfl, rfl⟩,
    ⟨runState [.writeMem] [5] [] 16, _, rfl, rfl, rfl⟩, ⟨runState [.readMem] [16] [] 16, _, rfl, rfl, rfl⟩,
    ⟨runState [.le] [] [] 16, _, rfl, rfl, rfl⟩⟩

theorem witness_FaultsArePrecise : ∃ s t : State, step s = .next t ∧ t.phase = .fault :=
  ⟨runState [.writeMem] [600, 4] [] 512, _, rfl, rfl⟩

theorem witness_FaultKindMatchesPhase :
    (∃ s t : State, step s = .next t ∧ t.fkind ≠ s.fkind) ∧ (∃ s : State, Reachable s ∧ s.phase = .fault) :=
  ⟨⟨runState [.le] [] [] 16, _, rfl, by decide⟩, ⟨_, reachable_truncated, rfl⟩⟩

theorem witness_UnderflowBeatsOutOfRange :
    (∃ (s t : State) (x : Nat), s.stack = [x] ∧ s.memSize ≤ x ∧ exec .writeMem s = .next t) ∧
    (∃ s t : State, s.stack = [] ∧ exec .readMem s = .next t) ∧
    (∃ s t : State, exec .le s = .next t) ∧ (∃ s t : State, exec (.loadConst 3) s = .next t) :=
  ⟨⟨runState [] [1023] [] 16, _, 1023, rfl, by decide, rfl⟩, ⟨State.reset, _, rfl, rfl⟩, ⟨State.reset, _, rfl⟩,
    ⟨State.reset, _, rfl⟩⟩

/-- A state with the invariant: right after reset (so also for the statements whose only hypothesis is the invariant). -/
theorem witness_StepKeepsTheInvariant : State.reset.Inv ∧ ∃ t, step State.reset = .next t := by
  refine ⟨?_, _, rfl⟩
  constructor <;> simp [State.reset, State.progLen, State.sp, Memory.wf, Config.memSizeDefault]

theorem witness_BootEstablishesTheInvariant :
    (∃ s : State, hostBoot [0x0C] 1 1024 State.reset = .next s) ∧ State.reset.Inv :=
  ⟨⟨_, boot_next⟩, witness_StepKeepsTheInvariant.1⟩

theorem witness_RunsAreNeverRefused : State.reset.Inv := witness_StepKeepsTheInvariant.1

theorem witness_ValuesStayBelow1024 : ∃ s : State, Reachable s ∧ 1024 ≤ s.memSize := ⟨_, reachable_boot, by decide⟩

/-- A reachable push into a stack of exactly `floor(CODE_LEN / 2)` cells, and a reachable append into a program store of
exactly `CODE_LEN` entries. -/
theorem witness_CountersStayBounded :
    (∃ (s t : State) (stackDepth : Nat), Reachable s ∧ step s = .next t ∧ s.codeLen / 2 ≤ stackDepth ∧ s.sp < t.sp) ∧
    (∃ (s t : State) (progCap : Nat), Reachable s ∧ step s = .next t ∧ s.codeLen ≤ progCap ∧ s.progLen < t.progLen) :=
  ⟨⟨{ booted [0x4E, 0x01] 1024 with cur := 2, prog := [.loadConst 5], phase := .execute }, _, 1,
      .stepped (s := { booted [0x4E, 0x01] 1024 with cur := 2, prog := [.loadConst 5] })
        (.stepped (s := booted [0x4E, 0x01] 1024)
          (.booted (show hostBoot [0x4E, 0x01] 2 1024 State.reset = .next (booted [0x4E, 0x01] 1024) from rfl)) rfl) rfl,
      rfl, by decide, by decide⟩,
    ⟨booted [0x0C] 1024, _, 1, reachable_boot, rfl, by decide, by decide⟩⟩

theorem witness_DecodePhaseTerminates :
    (∃ s : State, hostBoot [0x0C] 1 1024 State.reset = .next s) ∧
    (∃ s t : State, step s = .next t ∧ s.phase = .decode ∧ t.phase = .decode) :=
  ⟨⟨_, boot_next⟩, ⟨codeState [0x26] 0, _, rfl, rfl, rfl⟩⟩

theorem witness_EveryRunTerminates :
    (∃ s t : State, step s = .next t ∧ s.phase = .execute ∧ t.phase = .execute) ∧
    (∃ s : State, Reachable s ∧ s.phase = .execute) ∧
    (∃ s : State, hostBoot [0x0C] 1 1024 State.reset = .next s) :=
  ⟨⟨runState [.loadConst 1] [] [] 16, _, rfl, rfl, rfl⟩, ⟨_, reachable_execute, rfl⟩, ⟨_, boot_next⟩⟩

/-- A buffer for each of the Decoder's three answers. -/
theorem witness_DecodePhaseComputesDecoder :
    (∃ (s : State) (p : List Instr), s.phase = .decode ∧ s.ConfigLegal ∧ s.cur = 0 ∧ s.prog = [] ∧
      decodeProgram (s.code.take s.codeLen) = .ok p) ∧
    (∃ (s : State) (off : Nat) (p : List Instr), s.phase = .decode ∧ s.ConfigLegal ∧ s.cur = 0 ∧ s.prog = [] ∧
      decodeProgram (s.code.take s.codeLen) = .truncatedStream off p) ∧
    (∃ (s : State) (off : Nat) (a : BitVec 6) (p : List Instr), s.phase = .decode ∧ s.ConfigLegal ∧ s.cur = 0 ∧
      s.prog = [] ∧ decodeProgram (s.code.take s.codeLen) = .unknownOpcode off a p) :=
  ⟨⟨codeState [0x0C] 0, [.le], by decide⟩, ⟨codeState [0x0C, 0x4E] 0, 1, [.le], by decide⟩,
    ⟨codeState [0x0C, 0x01, 0x00] 0, 1, 1, [.le], by decide⟩⟩

/-- A program that ends with success and one that faults. -/
theorem witness_ExecutePhaseComputesExecutor :
    (∃ (s : State) (st : List Nat) (m : Nat → Nat), s.phase = .execute ∧ s.ConfigLegal ∧ s.ip ≤ s.progLen ∧
      refExec s.memSize (s.prog.drop s.ip) s.ip s.stack.reverse s.mem.read = .done st m) ∧
    (∃ (s : State) (k : FaultKind) (n v : Nat), s.phase = .execute ∧ s.ConfigLegal ∧ s.ip ≤ s.progLen ∧
      refExec s.memSize (s.prog.drop s.ip) s.ip s.stack.reverse s.mem.read = .fault k n v) :=
  ⟨⟨runState [.loadConst 3, .readMem] [] [(3, 8)] 16, _, _, rfl, by decide, by decide, rfl⟩,
    ⟨runState [.loadConst 16, .readMem] [] [] 16, _, _, _, rfl, by decide, by decide, rfl⟩⟩

theorem witness_SuccessMeansDecodedAndExecuted :
    (∃ s : State, hostBoot [0x0C] 1 1024 State.reset = .next s) ∧ (∃ s : State, Reachable s ∧ s.phase = .done) :=
  ⟨⟨_, boot_next⟩, ⟨_, reachable_done, rfl⟩⟩

theorem witness_NoSuccessfulRunHoldsLe : ∃ s : State, Reachable s ∧ s.phase = .done := ⟨_, reachable_done, rfl⟩

/-- The smallest memory, and a stream as long as the placed bytes. -/
theorem witness_BootGivesResetValues : 0 < 1 ∧ 1 ≤ [0x0C#8].length := by decide

theorem witness_ConfigurationIsSampledAtReset : ∃ s t : State, step s = .next t :=
  ⟨runState [.writeMem] [10, 99] [] 16, _, rfl⟩

theorem witness_BytesBeyondCodeLenAreNeverRead :
    ∃ (s t : State) (other : List Byte), step s = .next t ∧ s.codeLen ≤ other.length ∧
      other.take s.codeLen = s.code.take s.codeLen ∧ other ≠ s.code :=
  ⟨codeState [0x26] 0, _, [0x26, 0xFF], rfl, by decide, by decide, by decide⟩

theorem witness_IllegalConfigurationIsRefused :
    (0 < 1 ∧ [0x0C#8].length < 2) ∧ (∃ s : State, s.terminal = false ∧ s.memSize = 0) ∧
    (∃ s : State, s.terminal = false ∧ 0 < s.memSize ∧ s.code.length < s.codeLen) :=
  ⟨by decide, ⟨{ State.reset with memSize := 0 }, by decide⟩, ⟨{ codeState [0x0C] 0 with codeLen := 2 }, by decide⟩⟩

/-- A terminal state with a stack, at the boundary of each range; a state that is not terminal; one in DONE, one in
FAULT. -/
theorem witness_HostReadsInTerminalPhases :
    (∃ s : State, (s.phase = .done ∨ s.phase = .fault) ∧ 15 < s.memSize ∧ s.memSize ≤ 16 ∧
      s.stack[0]? = some 9 ∧ s.sp ≤ 1) ∧
    (∃ s : State, s.phase = .decode ∨ s.phase = .execute) ∧
    (∃ s : State, s.phase = .done ∧ 15 < s.memSize) ∧ (∃ s : State, s.phase = .fault) :=
  ⟨⟨{ runState [] [9] [] 16 with phase := .done }, by decide⟩, ⟨State.reset, by decide⟩,
    ⟨{ runState [] [9] [] 16 with phase := .done }, by decide⟩, ⟨{ State.reset with phase := .fault }, rfl⟩⟩

/-- A state of each phase, and the smallest legal boot. -/
theorem witness_HostHasOnlyResetDuringRun :
    (∃ s : State, s.phase = .decode ∨ s.phase = .execute) ∧ (0 < 1 ∧ 1 ≤ [0x0C#8].length) ∧
    (∃ s : State, s.phase = .done ∨ s.phase = .fault) :=
  ⟨⟨runState [.le] [] [] 16, by decide⟩, by decide, ⟨{ State.reset with phase := .done }, by decide⟩⟩

/-- The host's write between runs is reached in a run, and changes nothing that a step reads. -/
theorem reachable_after_write :
    Reachable { booted [] 1024 with phase := .done, cfgMemSize := 16 } :=
  .wroteMemSize 16 reachable_done rfl

end Sys2Proof.Tests
end

section
/-! SUPPORT. What an instruction read at the head of the stream says about the bytes: they are its encoding. -/

namespace Sys2Proof

/-- The encoder's word of an operand that fits its field: opcode 14 below the operand (spec/30_encoding.md R60). -/
theorem constWord_toNat {b : Nat} (hb : b ≤ 1023) : (constWord b).toNat = 14 + 64 * b := by
  unfold constWord opLoadConst
  rw [BitVec.toNat_or, BitVec.toNat_shiftLeft, BitVec.ofInt_natCast, BitVec.toNat_ofNat, Nat.shiftLeft_eq,
    Nat.mod_eq_of_lt (by omega), Nat.mod_eq_of_lt (by omega), Nat.or_comm, Nat.mul_comm b,
    BitVec.toNat_setWidth, ← Nat.two_pow_add_eq_or_of_lt (i := 6) (by decide)]
  simp only [BitVec.toNat_ofNat]
  omega

/-- A word whose A field is 14 is the encoder's word of its B field. -/
theorem constWord_fieldB {w : Word} (h : fieldA w = opLoadConst) : constWord (fieldB w).toNat = w := by
  have hw := w.isLt
  have hA : w.toNat % 64 = 14 := by
    rw [← fieldA_toNat, h]
    rfl
  apply BitVec.eq_of_toNat_eq
  rw [constWord_toNat (by rw [fieldB_toNat]; omega), fieldB_toNat]
  omega

/-- The low and the high byte of an assembled word are the bytes it was assembled from. -/
theorem bytes_assembleWord (lo hi : Byte) :
    (assembleWord lo hi).setWidth 8 = lo ∧ (assembleWord lo hi >>> 8).setWidth 8 = hi := by
  have hlo := lo.isLt
  have hhi := hi.isLt
  constructor <;> apply BitVec.eq_of_toNat_eq <;>
    simp only [BitVec.toNat_setWidth, BitVec.toNat_ushiftRight, Nat.shiftRight_eq_div_pow, assembleWord_toNat] <;>
    omega

theorem encode_length (i : Instr) : (encode i).length = i.lengthBytes := by
  cases i with
  | loadConst b => exact Laws.EncodeLength.loadConst b
  | le => exact Laws.EncodeLength.le
  | writeMem => exact Laws.EncodeLength.writeMem
  | readMem => exact Laws.EncodeLength.readMem

/-- An instruction read is well-formed, and the bytes taken are its encoding. -/
theorem decodeFirst_instr_encode {bs rest : List Byte} {i : Instr} (h : decodeFirst bs = .instr i rest) :
    i.wellFormed = true ∧ bs = encode i ++ rest := by
  rcases decodeFirst_eq_instr h with ⟨b0, rfl, hi⟩ | ⟨b0, b1, rfl, -, hA, rfl⟩
  · rcases oneByteInstr_eq_some.1 hi with ⟨rfl, rfl⟩ | ⟨rfl, rfl⟩ | ⟨rfl, rfl⟩ <;> exact ⟨rfl, rfl⟩
  · obtain ⟨hlo, hhi⟩ := bytes_assembleWord b0 b1
    refine ⟨(wellFormed_loadConst _).2 (Nat.le_of_lt_succ (fieldB _).isLt), ?_⟩
    simp [encode, encodeConst, constWord_fieldB hA, hlo, hhi]

end Sys2Proof
end

section
/-! SUPPORT. One step as a flat list of cases, each with everything it needs and the next state it gives.  Proofs about
every step split on `step_cases`. -/

namespace Sys2Proof.Machine

/-- Why a decode step raises a fault, with `FVAL` (spec/40_decoder.md R67, R68). -/
inductive DecodeFaultCause (s : State) : FaultKind → Nat → Prop where
  | truncated (read : decodeFirst s.liveBytes = .truncatedStream) : DecodeFaultCause s .truncatedStream 0
  | unknown {a : BitVec 6} (read : decodeFirst s.liveBytes = .unknownOpcode a) :
      DecodeFaultCause s .unknownOpcode a.toNat

/-- Why an instruction raises a fault, with `FVAL` (spec/42_memory_access.md R82, R84; spec/43_le.md R85). -/
inductive ExecFaultCause (s : State) : Instr → FaultKind → Nat → Prop where
  | le : ExecFaultCause s .le .unimplementedOpcode 0
  | loadUnderflow (stack : s.stack = []) : ExecFaultCause s .readMem .stackUnderflow 0
  | storeUnderflow (stack : s.sp < 2) : ExecFaultCause s .writeMem .stackUnderflow 0
  | loadRange {xs : List Nat} {a : Nat} (stack : s.stack = xs ++ [a]) (range : s.memSize ≤ a) :
      ExecFaultCause s .readMem .addressOutOfRange a
  | storeRange {xs : List Nat} {a v : Nat} (stack : s.stack = xs ++ [a, v]) (range : s.memSize ≤ a) :
      ExecFaultCause s .writeMem .addressOutOfRange a

/-- What an instruction can do: complete in one of three ways, or raise a fault. -/
inductive ExecCase (s : State) : Instr → State → Prop where
  | loadConst (b : Nat) : ExecCase s (.loadConst b) (s.push b).advance
  | readMem {xs : List Nat} {a : Nat} (stack : s.stack = xs ++ [a]) (range : a < s.memSize) :
      ExecCase s .readMem (s.setTop (s.mem.read a)).advance
  | writeMem {xs : List Nat} {a v : Nat} (stack : s.stack = xs ++ [a, v]) (range : a < s.memSize) :
      ExecCase s .writeMem (s.storeCell a v).dropTwo.advance
  | fault {i : Instr} {k : FaultKind} {info : Nat} (cause : ExecFaultCause s i k info) :
      ExecCase s i (s.raise k info)

/-- What a step can do: end a phase, decode an instruction, raise a decode fault, or execute an instruction. -/
inductive StepCase (s : State) : State → Prop where
  | beginExecute (phase : s.phase = .decode) (all : s.cur = s.codeLen) : StepCase s s.beginExecute
  | emit {i : Instr} {rest : List Byte} (phase : s.phase = .decode) (more : s.cur ≠ s.codeLen)
      (read : decodeFirst s.liveBytes = .instr i rest) : StepCase s (s.emit i)
  | decodeFault {k : FaultKind} {info : Nat} (phase : s.phase = .decode) (more : s.cur ≠ s.codeLen)
      (cause : DecodeFaultCause s k info) : StepCase s (s.raise k info)
  | endRun (phase : s.phase = .execute) (all : s.ip = s.progLen) : StepCase s s.endRun
  | exec {i : Instr} {t : State} (phase : s.phase = .execute) (entry : s.prog[s.ip]? = some i)
      (done : ExecCase s i t) : StepCase s t

variable {s t : State}

theorem exec_cases {i : Instr} (h : exec i s = .next t) : ExecCase s i t := by
  rcases exec_next h with ⟨b, rfl, rfl⟩ | ⟨rfl, a, ho, hr, rfl⟩ | ⟨rfl, a, v, ho, hr, rfl⟩ | ⟨rfl, rfl⟩ |
    ⟨rfl, ho, rfl⟩ | ⟨rfl, ho, rfl⟩ | ⟨a, hr, rfl, ⟨rfl, ho⟩ | ⟨rfl, v, ho⟩⟩
  · exact .loadConst b
  · obtain ⟨xs, hx⟩ := State.loadOperand_eq_some.1 ho
    exact .readMem hx hr
  · obtain ⟨xs, hx⟩ := State.storeOperands_eq_some.1 ho
    exact .writeMem hx hr
  · exact .fault .le
  · exact .fault (.loadUnderflow (State.loadOperand_eq_none.1 ho))
  · exact .fault (.storeUnderflow (State.storeOperands_eq_none.1 ho))
  · obtain ⟨xs, hx⟩ := State.loadOperand_eq_some.1 ho
    exact .fault (.loadRange hx hr)
  · obtain ⟨xs, hx⟩ := State.storeOperands_eq_some.1 ho
    exact .fault (.storeRange hx hr)

theorem step_cases (h : step s = .next t) : StepCase s t := by
  obtain ⟨-, ⟨hp, h⟩ | ⟨hp, h⟩⟩ := step_next h
  · rcases decodeStep_next h with ⟨hc, rfl⟩ | ⟨hc, ⟨i, rest, hd, rfl⟩ | ⟨hd, rfl⟩ | ⟨a, hd, rfl⟩⟩
    · exact .beginExecute hp hc
    · exact .emit hp hc hd
    · exact .decodeFault hp hc (.truncated hd)
    · exact .decodeFault hp hc (.unknown hd)
  · rcases executeStep_next h with ⟨hi, rfl⟩ | ⟨-, i, hi, h⟩
    · exact .endRun hp hi
    · exact .exec hp hi (exec_cases h)

/-- No step changes the sampled `CODE_LEN` (spec/70_reset_and_hazards.md R105). -/
theorem step_codeLen (h : step s = .next t) : t.codeLen = s.codeLen := by
  cases step_cases h with
  | exec _ _ done => cases done <;> rfl
  | _ => rfl

/-- No step changes the sampled `MEM_SIZE` (spec/70_reset_and_hazards.md R105). -/
theorem step_memSize (h : step s = .next t) : t.memSize = s.memSize := by
  cases step_cases h with
  | exec _ _ done => cases done <;> rfl
  | _ => rfl

/-- A step writes `FKIND` by fault entry only (spec/10_state.md R22). -/
theorem step_fkind_eq_or_fault (h : step s = .next t) : t.fkind = s.fkind ∨ t.phase = .fault := by
  cases step_cases h with
  | beginExecute | emit | endRun => exact .inl rfl
  | decodeFault => exact .inr rfl
  | exec _ _ done =>
    cases done with
    | loadConst | readMem | writeMem => exact .inl rfl
    | fault => exact .inr rfl

/-- AddressOutOfRange, where a step newly raises it, has its address on the stack (spec/60_exceptions.md R87). -/
theorem step_addressOutOfRange (h : step s = .next t) (hk : t.fkind = .addressOutOfRange) :
    s.fkind = .addressOutOfRange ∨ ∃ a ∈ s.stack, s.memSize ≤ a := by
  cases step_cases h with
  | beginExecute | emit | endRun => exact .inl hk
  | decodeFault _ _ cause => cases cause <;> cases hk
  | exec _ _ done =>
    cases done with
    | loadConst | readMem | writeMem => exact .inl hk
    | fault cause =>
      cases cause with
      | le | loadUnderflow | storeUnderflow => cases hk
      | loadRange stack range | storeRange stack range => exact .inr ⟨_, by simp [stack], range⟩

end Sys2Proof.Machine
end

section
/-! SUPPORT. The invariant of every run (`State.Inv`): a lemma per change of state, then every step, every boot, every
write of a configuration register, and so every reachable state. -/

namespace Sys2Proof.Machine

variable {s t : State}

/-! ### What the invariant says at once -/

theorem State.Inv.fkind_none (h : s.Inv) (hp : s.phase ≠ .fault) : s.fkind = .none := by
  by_contra hk
  exact hp (h.faultKind.1 hk)

theorem State.Inv.read_le (h : s.Inv) (a : Nat) : s.mem.read a ≤ 1023 := by
  rcases Memory.read_cases s.mem a with hu | hm
  · simp [hu, Memory.unlisted]
  · exact h.memSmall _ hm

/-- The program store's encoding is as long as the bytes consumed. -/
theorem State.Inv.length_encodeProgram (h : s.Inv) : (encodeProgram s.prog).length = s.cur := by
  rw [h.progIsConsumed, List.length_take]
  have := h.curInStream
  have := h.codeLoaded
  omega

theorem State.Inv.length_liveBytes (h : s.Inv) : s.liveBytes.length = s.codeLen - s.cur := by
  have := h.codeLoaded
  simp only [State.liveBytes, List.length_drop, List.length_take]
  omega

/-! ### The decode phase -/

theorem State.Inv.beginExecute (h : s.Inv) (hp : s.phase = .decode) (hc : s.cur = s.codeLen) :
    s.beginExecute.Inv :=
  have hk : s.fkind = .none := h.fkind_none (by simp [hp])
  { h with
    decodedAll := fun _ => hc
    executedAll := fun hd => by cases hd
    nothingExecuted := fun _ => h.nothingExecuted (.inl hp)
    faultKind := by simp [hk]
    noFaultValue := fun _ => h.noFaultValue (by simp [hp]) }

/-- The bytes consumed after an instruction is read: those before, then its encoding. -/
theorem State.take_cur_of_decodeFirst {i : Instr} {rest : List Byte} (hd : decodeFirst s.liveBytes = .instr i rest)
    (hc : s.cur + i.lengthBytes ≤ s.codeLen) :
    s.code.take (s.cur + i.lengthBytes) = s.code.take s.cur ++ encode i := by
  have hlive : (s.code.drop s.cur).take (s.codeLen - s.cur) = encode i ++ rest := by
    rw [← List.drop_take]
    exact (decodeFirst_instr_encode hd).2
  calc s.code.take (s.cur + i.lengthBytes)
      = s.code.take s.cur ++ ((s.code.drop s.cur).take (s.codeLen - s.cur)).take i.lengthBytes := by
        rw [List.take_add, List.take_take, Nat.min_eq_left (by omega)]
    _ = s.code.take s.cur ++ encode i := by rw [hlive, List.take_left' (encode_length i)]

theorem State.Inv.emit (h : s.Inv) (hp : s.phase = .decode) {i : Instr} {rest : List Byte}
    (hd : decodeFirst s.liveBytes = .instr i rest) : (s.emit i).Inv := by
  have hk : s.fkind = .none := h.fkind_none (by simp [hp])
  have hip : s.ip = 0 := h.nothingExecuted (.inl hp)
  obtain ⟨hwf, -⟩ := decodeFirst_instr_encode hd
  have hcur : s.cur + i.lengthBytes ≤ s.codeLen := by
    have hlen := (decodeFirst_length hd).2
    have := i.lengthBytes_pos
    rw [h.length_liveBytes] at hlen
    omega
  exact
    { h with
      curInStream := hcur
      ipInProgram := by simp [hip]
      progIsConsumed := by
        simp [encodeProgram_append, h.progIsConsumed, State.take_cur_of_decodeFirst hd hcur]
      progWellFormed := by
        intro j hj
        rcases List.mem_append.1 hj with hj | hj
        · exact h.progWellFormed j hj
        · rwa [List.mem_singleton.1 hj]
      decodedAll := by simp [hp]
      executedAll := by simp [hp]
      noLePassed := by simp [hip]
      executeFault := by simp [hk]
      depth := by
        obtain ⟨hst, -⟩ := h.untouched hip
        simp [State.sp, hst] }

theorem State.Inv.raise_decodeFault (h : s.Inv) (hp : s.phase = .decode) {k : FaultKind} {info : Nat}
    (hk : DecodeFaultCause s k info) : (s.raise k info).Inv :=
  { h with
    decodedAll := by simp
    executedAll := by simp
    nothingExecuted := fun _ => h.nothingExecuted (.inl hp)
    executeFault := by cases hk <;> simp
    faultKind := by cases hk <;> simp
    noFaultValue := by simp }

/-! ### The execute phase -/

theorem State.Inv.endRun (h : s.Inv) (hp : s.phase = .execute) (hi : s.ip = s.progLen) : s.endRun.Inv :=
  have hk : s.fkind = .none := h.fkind_none (by simp [hp])
  { h with
    decodedAll := fun _ => h.decodedAll (.inl hp)
    executedAll := fun _ => hi
    nothingExecuted := by simp [hk]
    faultKind := by simp [hk]
    noFaultValue := fun _ => h.noFaultValue (by simp [hp]) }

theorem State.Inv.raise_execFault (h : s.Inv) (hp : s.phase = .execute) {i : Instr} {k : FaultKind} {info : Nat}
    (hi : s.prog[s.ip]? = some i) (hk : ExecFaultCause s i k info) : (s.raise k info).Inv :=
  { h with
    decodedAll := by simp
    executedAll := by simp
    nothingExecuted := by cases hk <;> simp
    executeFault := fun _ => ⟨h.decodedAll (.inl hp), (List.getElem?_eq_some_iff.1 hi).1⟩
    faultKind := by cases hk <;> simp
    noFaultValue := by simp }

/-- An instruction that completes keeps the invariant if its new stack and memory are small and in form, and it adds to
the stack only as `pushes` says. -/
theorem State.Inv.complete (h : s.Inv) (hp : s.phase = .execute) {i : Instr} {st : List Nat} {m : Memory}
    (hi : s.prog[s.ip]? = some i) (hle : i ≠ .le) (hlen : st.length ≤ s.sp + [i].countP pushes)
    (hst : ∀ v ∈ st, v ≤ 1023) (hm : ∀ c ∈ m, c.1 < s.memSize ∧ c.2 ≤ 1023) (hwf : m.wf) :
    State.Inv { s with ip := s.ip + 1, stack := st, mem := m } := by
  have hk : s.fkind = .none := h.fkind_none (by simp [hp])
  have htake : s.prog.take (s.ip + 1) = s.prog.take s.ip ++ [i] := by simp [List.take_add_one, hi]
  exact
    { h with
      ipInProgram := (List.getElem?_eq_some_iff.1 hi).1
      executedAll := by simp [hp]
      noLePassed := by simpa [htake, hle.symm] using h.noLePassed
      nothingExecuted := by simp [hp, hk]
      untouched := by simp
      executeFault := by simp [hk]
      depth := by
        have := h.depth
        simp only [State.sp, htake, List.countP_append] at this hlen ⊢
        omega
      stackSmall := hst
      memSmall := fun c hc => (hm c hc).2
      memWf := hwf
      memInRange := fun c hc => (hm c hc).1 }

/-- Memory as it is, for the instructions that do not store. -/
theorem State.Inv.mem_small_inRange (h : s.Inv) : ∀ c ∈ s.mem, c.1 < s.memSize ∧ c.2 ≤ 1023 :=
  fun c hc => ⟨h.memInRange c hc, h.memSmall c hc⟩

theorem State.Inv.push_advance (h : s.Inv) (hp : s.phase = .execute) {b : Nat}
    (hi : s.prog[s.ip]? = some (.loadConst b)) : (s.push b).advance.Inv := by
  have hb : b ≤ 1023 := (wellFormed_loadConst b).1 (h.progWellFormed _ (List.mem_of_getElem? hi))
  refine h.complete hp (st := s.stack ++ [b]) hi (by simp) (by simp [State.sp, pushes]) ?_ h.mem_small_inRange h.memWf
  intro v hv
  rcases List.mem_append.1 hv with hv | hv
  · exact h.stackSmall v hv
  · rwa [List.mem_singleton.1 hv]

theorem State.Inv.setTop_advance (h : s.Inv) (hp : s.phase = .execute) {xs : List Nat} {a : Nat}
    (hi : s.prog[s.ip]? = some .readMem) (hx : s.stack = xs ++ [a]) :
    (s.setTop (s.mem.read a)).advance.Inv := by
  refine h.complete hp (st := s.stack.dropLast ++ [s.mem.read a]) hi (by simp) (by simp [State.sp, hx]) ?_
    h.mem_small_inRange h.memWf
  intro v hv
  rcases List.mem_append.1 hv with hv | hv
  · exact h.stackSmall v (List.dropLast_subset _ hv)
  · rw [List.mem_singleton.1 hv]
    exact h.read_le a

theorem State.Inv.storeCell_dropTwo_advance (h : s.Inv) (hp : s.phase = .execute) {xs : List Nat} {a v : Nat}
    (hi : s.prog[s.ip]? = some .writeMem) (hx : s.stack = xs ++ [a, v]) (ha : a < s.memSize) :
    (s.storeCell a v).dropTwo.advance.Inv := by
  refine h.complete hp (st := s.stack.take (s.sp - 2)) hi (by simp) (by simp [State.sp]; omega) ?_ ?_
    (Memory.wf_write h.memWf a v)
  · exact fun w hw => h.stackSmall w (List.mem_of_mem_take hw)
  · intro c hc
    rcases Memory.mem_write hc with rfl | hc
    · exact ⟨ha, h.stackSmall v (by simp [hx])⟩
    · exact h.mem_small_inRange c hc

/-! ### Steps, boots, configuration writes, and every run -/

theorem exec_keeps_inv {i : Instr} (h : s.Inv) (hp : s.phase = .execute) (hi : s.prog[s.ip]? = some i)
    (he : ExecCase s i t) : t.Inv := by
  cases he with
  | loadConst b => exact h.push_advance hp hi
  | readMem stack _ => exact h.setTop_advance hp hi stack
  | writeMem stack range => exact h.storeCell_dropTwo_advance hp hi stack range
  | fault cause => exact h.raise_execFault hp hi cause

theorem step_keeps_inv (h : s.Inv) (hs : step s = .next t) : t.Inv := by
  cases step_cases hs with
  | beginExecute phase all => exact h.beginExecute phase all
  | emit phase _ read => exact h.emit phase read
  | decodeFault phase _ cause => exact h.raise_decodeFault phase cause
  | endRun phase all => exact h.endRun phase all
  | exec phase entry done => exact exec_keeps_inv h phase entry done

/-- A reset that samples a legal configuration establishes the invariant (spec/10_state.md R28). -/
theorem State.applyReset_inv (hm : 0 < s.cfgMemSize) (hc : s.cfgCodeLen ≤ s.code.length) : s.applyReset.Inv where
  memSizePos := hm
  codeLoaded := hc
  curInStream := Nat.zero_le _
  ipInProgram := Nat.zero_le _
  progIsConsumed := by simp
  progWellFormed := by simp
  decodedAll := by simp
  executedAll := by simp
  noLePassed := by simp
  nothingExecuted := fun _ => rfl
  untouched := fun _ => ⟨rfl, rfl⟩
  executeFault := by simp
  depth := Nat.zero_le _
  stackSmall := by simp
  memSmall := by simp
  memWf := Memory.wf_nil
  memInRange := by simp
  faultKind := by simp
  noFaultValue := fun _ => rfl

theorem hostBoot_inv {bytes : List Byte} {codeLen memSize : Nat} (h : hostBoot bytes codeLen memSize s = .next t) :
    t.Inv := by
  obtain ⟨hm, hl, rfl⟩ := hostBoot_next h
  exact State.applyReset_inv hm hl

theorem State.Inv.writeCfgMemSize (h : s.Inv) (n : Nat) : (s.writeCfgMemSize n).Inv := { h with }

theorem State.Inv.writeCfgCodeLen (h : s.Inv) (n : Nat) : (s.writeCfgCodeLen n).Inv := { h with }

theorem Reachable.inv (h : Reachable s) : s.Inv := by
  induction h with
  | booted hb => exact hostBoot_inv hb
  | stepped _ hs ih => exact step_keeps_inv ih hs
  | wroteMemSize n _ hw ih =>
    obtain ⟨-, rfl⟩ := hostWriteCfgMemSize_eq_some.1 hw
    exact ih.writeCfgMemSize n
  | wroteCodeLen n _ hw ih =>
    obtain ⟨-, rfl⟩ := hostWriteCfgCodeLen_eq_some.1 hw
    exact ih.writeCfgCodeLen n

end Sys2Proof.Machine
end

section
/-! SUPPORT. The statements about the state (spec/10_state.md R22, R28, R29, R30). -/

namespace Sys2Proof.Machine

variable {s t : State}

/-! ### The reset table (R28) -/

/-- A legal boot is answered, with the reset of the loaded core: the converse of `hostBoot_next`. -/
theorem hostBoot_of_legal {bytes : List Byte} {codeLen memSize : Nat} (hm : 0 < memSize)
    (hl : codeLen ≤ bytes.length) : hostBoot bytes codeLen memSize s =
      .next (((s.placeCode bytes).writeCfgCodeLen codeLen).writeCfgMemSize memSize).applyReset := by
  have hc : (((s.placeCode bytes).writeCfgCodeLen codeLen).writeCfgMemSize memSize).applyReset.configProblem = none :=
    State.configProblem_eq_none.2 ⟨hm, hl⟩
  simp only [hostBoot, hc]

/-- Settles O44: a legal boot is the reset of the loaded core, which has the table's values field by field. -/
theorem bootGivesResetValues : Obligations.BootGivesResetValues :=
  ⟨fun _ _ _ _ hm hl => hostBoot_of_legal hm hl, fun _ => rfl, rfl⟩

/-! ### The fault kind (R22) -/

theorem FaultKind.code_eq_zero {k : FaultKind} : k.code = 0 ↔ k = .none := by
  cases k <;> decide

theorem FaultKind.code_ne_six_seven (k : FaultKind) : k.code ≠ 6 ∧ k.code ≠ 7 := by
  cases k <;> decide

/-- Settles O31: `FKIND` is written with `PHASE` by fault entry, and the invariant of every run ties the two. -/
theorem faultKindMatchesPhase : Obligations.FaultKindMatchesPhase := by
  refine ⟨⟨rfl, rfl, rfl, rfl, rfl, rfl, FaultKind.code_ne_six_seven⟩, ?_, ?_⟩
  · intro s t h hne
    exact (step_fkind_eq_or_fault h).resolve_left hne
  · intro s h
    rw [ne_eq, FaultKind.code_eq_zero]
    exact h.inv.faultKind

/-! ### Values (R29) -/

/-- A run that ended in AddressOutOfRange has a small memory: the address was a stack item. -/
theorem Reachable.memSize_le_of_addressOutOfRange (h : Reachable s) (hk : s.fkind = .addressOutOfRange) :
    s.memSize ≤ 1023 := by
  induction h with
  | booted hb =>
    obtain ⟨-, -, rfl⟩ := hostBoot_next hb
    cases hk
  | stepped hr hs ih =>
    rw [step_memSize hs]
    rcases step_addressOutOfRange hs hk with hk | ⟨a, ha, hle⟩
    · exact ih hk
    · exact hle.trans (hr.inv.stackSmall a ha)
  | wroteMemSize n _ hw ih =>
    obtain ⟨-, rfl⟩ := hostWriteCfgMemSize_eq_some.1 hw
    exact ih hk
  | wroteCodeLen n _ hw ih =>
    obtain ⟨-, rfl⟩ := hostWriteCfgCodeLen_eq_some.1 hw
    exact ih hk

/-- Settles O36, by the invariant of every run. -/
theorem valuesStayBelow1024 : Obligations.ValuesStayBelow1024 := by
  intro s h
  refine ⟨h.inv.stackSmall, h.inv.read_le, fun hm hk => ?_⟩
  have := h.memSize_le_of_addressOutOfRange hk
  omega

/-! ### Counters (R30) -/

/-- A program's encoding has one byte per instruction, and one more per LOAD_CONST. -/
theorem encodeProgram_length (p : List Instr) :
    (encodeProgram p).length = p.length + p.countP pushes := by
  induction p with
  | nil => rfl
  | cons i p ih =>
    have hi : (encode i).length = 1 + if pushes i then 1 else 0 := by cases i <;> rfl
    simp only [encodeProgram_cons, List.length_append, List.length_cons, List.countP_cons, hi, ih]
    omega

theorem State.Inv.progLen_le (h : s.Inv) : s.progLen ≤ s.codeLen := by
  have hlen := h.length_encodeProgram
  have hcur := h.curInStream
  rw [encodeProgram_length] at hlen
  simp only [State.progLen]
  omega

/-- Each item was pushed by a LOAD_CONST, which took two bytes. -/
theorem State.Inv.sp_le (h : s.Inv) : s.sp ≤ s.codeLen / 2 := by
  have hlen := h.length_encodeProgram
  have hcur := h.curInStream
  have hdepth : s.sp ≤ s.prog.countP pushes := h.depth.trans (List.take_sublist _ _).countP_le
  have hcount := List.countP_le_length (p := pushes) (l := s.prog)
  rw [encodeProgram_length] at hlen
  omega

/-- Settles O37: the bounds come from the invariant; a full store is impossible because the state after the step meets
the same bounds. -/
theorem countersStayBounded : Obligations.CountersStayBounded := by
  refine ⟨fun s h => ⟨h.inv.sp_le, h.inv.progLen_le, h.inv.ipInProgram, h.inv.curInStream⟩, ?_, ?_⟩
  · intro s t stackDepth h hs hcap hlt
    have ht := (h.stepped hs).inv.sp_le
    rw [step_codeLen hs] at ht
    omega
  · intro s t progCap h hs hcap hlt
    have ht := (h.stepped hs).inv.progLen_le
    rw [step_codeLen hs] at ht
    omega

end Sys2Proof.Machine
end

section
/-! SUPPORT. What a step leaves unchanged: code, configuration and program store (spec/20_memory.md R31, R43). -/

namespace Sys2Proof.Machine

variable {s t : State}

/-- The part of the state that no instruction reaches, whether it completes or faults (spec/20_memory.md R31). -/
theorem ExecCase.code_config_prog {i : Instr} (h : ExecCase s i t) :
    t.code = s.code ∧ t.codeLen = s.codeLen ∧ t.cfgCodeLen = s.cfgCodeLen ∧ t.cfgMemSize = s.cfgMemSize ∧
    t.memSize = s.memSize ∧ t.cur = s.cur ∧ t.prog = s.prog := by
  cases h with
  | loadConst | readMem | writeMem | fault => simp

/-- Settles O28: only the decode phase appends to the program store, and no instruction reaches the code, the
configuration or the program store. -/
theorem storesNeverReachCode : Obligations.StoresNeverReachCode := by
  intro s t h
  cases step_cases h with
  | beginExecute phase | emit phase | decodeFault phase => simp [phase]
  | endRun => simp
  | exec _ _ done =>
    obtain ⟨code, codeLen, cfgCodeLen, cfgMemSize, memSize, -, prog⟩ := done.code_config_prog
    exact ⟨code, codeLen, memSize, cfgCodeLen, cfgMemSize, fun _ => prog⟩

end Sys2Proof.Machine
end

section
/-! SUPPORT. The decoder's equations, one per class of first byte, in terms of the two bytes (spec/30_encoding.md R51,
R53), and the two bytes of a LOAD_CONST (R46). -/

namespace Sys2Proof

open Machine

/-! ### The fields in terms of the two bytes (R51) -/

theorem fieldA_assembleWord (lo hi : Byte) : fieldA (assembleWord lo hi) = BitVec.ofNat 6 (lo.toNat % 64) := by
  apply BitVec.eq_of_toNat_eq
  rw [fieldA_toNat, assembleWord_toNat, BitVec.toNat_ofNat]
  omega

theorem fieldB_assembleWord_toNat (lo hi : Byte) :
    (fieldB (assembleWord lo hi)).toNat = hi.toNat * 4 + lo.toNat / 64 := by
  rw [fieldB_toNat, assembleWord_toNat]
  omega

theorem fieldA_assembleWord_eq_opLoadConst {lo : Byte} (hi : Byte) :
    fieldA (assembleWord lo hi) = opLoadConst ↔ lo.toNat % 64 = 14 := by
  rw [← BitVec.toNat_inj, fieldA_toNat, assembleWord_toNat, show opLoadConst.toNat = 14 from rfl]
  omega

/-! ### The three classes of first byte (R53) -/

theorem oneByteInstr_eq_none {b : Byte} : oneByteInstr b = none ↔ ¬ OneByteOpcode b := by
  constructor
  · rintro h (rfl | rfl | rfl) <;> cases h
  · intro h
    refine Option.eq_none_iff_forall_ne_some.2 fun i hi => h ?_
    rcases oneByteInstr_eq_some.1 hi with ⟨hb, -⟩ | ⟨hb, -⟩ | ⟨hb, -⟩
    exacts [.inl hb, .inr (.inl hb), .inr (.inr hb)]

/-- R57: a first byte with low six bits 14 is no one-byte opcode. -/
theorem not_oneByteOpcode_of_mod {b : Byte} (h : b.toNat % 64 = 14) : ¬ OneByteOpcode b := by
  rintro (rfl | rfl | rfl) <;> contradiction

theorem decodeFirst_of_oneByteInstr {b0 : Byte} {i : Instr} (h : oneByteInstr b0 = some i) (rest : List Byte) :
    decodeFirst (b0 :: rest) = .instr i rest := by
  simp only [decodeFirst, h]

theorem decodeFirst_last_iff {b0 : Byte} : decodeFirst [b0] = .truncatedStream ↔ ¬ OneByteOpcode b0 := by
  rw [decodeFirst_eq_truncatedStream, ← oneByteInstr_eq_none]
  simp

theorem decodeFirst_loadConst {b0 : Byte} (h : b0.toNat % 64 = 14) (b1 : Byte) (rest : List Byte) :
    decodeFirst (b0 :: b1 :: rest) = .instr (.loadConst (b1.toNat * 4 + b0.toNat / 64)) rest := by
  have hnone := oneByteInstr_eq_none.2 (not_oneByteOpcode_of_mod h)
  have hA := (fieldA_assembleWord_eq_opLoadConst b1).2 h
  simp only [decodeFirst, hnone, if_pos hA, fieldB_assembleWord_toNat]

theorem decodeFirst_unknown {b0 : Byte} (hb : ¬ OneByteOpcode b0) (h : b0.toNat % 64 ≠ 14) (b1 : Byte)
    (rest : List Byte) : decodeFirst (b0 :: b1 :: rest) = .unknownOpcode (BitVec.ofNat 6 (b0.toNat % 64)) := by
  have hA := mt (fieldA_assembleWord_eq_opLoadConst b1).1 h
  refine decodeFirst_eq_unknownOpcode.2
    ⟨b0, b1, rest, rfl, oneByteInstr_eq_none.2 hb, fieldA_assembleWord b0 b1, ?_⟩
  rwa [← fieldA_assembleWord b0 b1]

/-- The first bytes with low six bits 14, as R53 lists them. -/
theorem toNat_mod_eq_14_iff {b : Byte} :
    b.toNat % 64 = 14 ↔ b = 0x0E#8 ∨ b = 0x4E#8 ∨ b = 0x8E#8 ∨ b = 0xCE#8 := by
  have := b.isLt
  simp only [← BitVec.toNat_inj, BitVec.toNat_ofNat]
  omega

/-! ### The bytes of a LOAD_CONST (R46, R60) -/

theorem encode_loadConst {b : Nat} (hb : b ≤ 1023) :
    encode (.loadConst b) = [BitVec.ofNat 8 (14 + 64 * (b % 4)), BitVec.ofNat 8 (b / 4)] := by
  simp only [encode, encodeConst, List.cons.injEq, and_true, ← BitVec.toNat_inj, BitVec.toNat_setWidth,
    BitVec.toNat_ushiftRight, Nat.shiftRight_eq_div_pow, constWord_toNat hb, BitVec.toNat_ofNat]
  omega

/-- The encoder's word keeps ten bits of the operand (R60). -/
theorem constWord_emod (operand : Int) : constWord operand = constWord (operand % 1024).toNat := by
  have hshift : BitVec.ofInt 16 operand <<< 6 = BitVec.ofInt 16 (operand % 1024).toNat <<< 6 := by
    apply BitVec.eq_of_toNat_eq
    simp only [BitVec.toNat_shiftLeft, BitVec.toNat_ofInt, Nat.shiftLeft_eq]
    omega
  rw [constWord, constWord, hshift]

theorem encodeConst_emod (operand : Int) : encodeConst operand = encode (.loadConst (operand % 1024).toNat) := by
  rw [encodeConst, constWord_emod]
  rfl

/-- Decoding the encoding of a well-formed instruction gives it back and leaves what follows. -/
theorem decodeFirst_encode {i : Instr} (h : i.wellFormed = true) (rest : List Byte) :
    decodeFirst (encode i ++ rest) = .instr i rest := by
  cases i with
  | loadConst b =>
    have hb := (wellFormed_loadConst b).1 h
    rw [encode_loadConst hb, List.cons_append, List.cons_append, List.nil_append,
      decodeFirst_loadConst (by rw [BitVec.toNat_ofNat]; omega)]
    simp only [BitVec.toNat_ofNat, Decoded.instr.injEq, Instr.loadConst.injEq, and_true]
    omega
  | le | writeMem | readMem => exact decodeFirst_of_oneByteInstr rfl rest

end Sys2Proof
end

section
/-! SUPPORT. Encoder and decoder on whole sequences (spec/30_encoding.md R57, R62). -/

namespace Sys2Proof

theorem decodeFrom_nil (n off : Nat) (acc : List Instr) : decodeFrom n [] off acc = .ok acc := by
  cases n <;> rfl

theorem decodeFrom_of_instr {bs rest : List Byte} {i : Instr} (h : decodeFirst bs = .instr i rest) (n off : Nat)
    (acc : List Instr) :
    decodeFrom (n + 1) bs off acc = decodeFrom n rest (off + i.lengthBytes) (acc ++ [i]) := by
  simp only [decodeFrom, h]

/-- Decoding a sequence's encoding, after what is already decoded, appends the sequence. -/
theorem decodeFrom_encodeProgram {p : List Instr} (hp : ∀ i ∈ p, i.wellFormed = true) {n : Nat}
    (hn : (encodeProgram p).length ≤ n) (off : Nat) (acc : List Instr) :
    decodeFrom n (encodeProgram p) off acc = .ok (acc ++ p) := by
  induction p generalizing n off acc with
  | nil => rw [encodeProgram_nil, decodeFrom_nil, List.append_nil]
  | cons i p ih =>
    have hpos := i.lengthBytes_pos
    rw [encodeProgram_cons, List.length_append, encode_length] at hn
    obtain ⟨m, rfl⟩ : ∃ m, n = m + 1 := ⟨n - 1, by omega⟩
    rw [encodeProgram_cons, decodeFrom_of_instr (decodeFirst_encode (hp i List.mem_cons_self) _),
      ih (fun j hj => hp j (List.mem_cons_of_mem i hj)) (by omega), List.append_assoc, List.singleton_append]

/-- A successful decode consumed exactly the encoding of what it appended. -/
theorem encodeProgram_of_decodeFrom {n off : Nat} {bs : List Byte} {acc p : List Instr} (hn : bs.length ≤ n)
    (h : decodeFrom n bs off acc = .ok p) : encodeProgram p = encodeProgram acc ++ bs := by
  induction n generalizing bs off acc with
  | zero =>
    obtain rfl := List.eq_nil_of_length_eq_zero (Nat.le_zero.1 hn)
    cases h
    rw [List.append_nil]
  | succ n ih =>
    cases hd : decodeFirst bs with
    | instr i rest =>
      obtain ⟨-, hlen⟩ := decodeFirst_length hd
      obtain ⟨-, hbs⟩ := decodeFirst_instr_encode hd
      have hpos := i.lengthBytes_pos
      rw [decodeFrom_of_instr hd] at h
      rw [ih (by omega) h, encodeProgram_append, hbs]
      simp
    | endOfBuffer =>
      obtain rfl := decodeFirst_eq_endOfBuffer.1 hd
      rw [decodeFrom_nil] at h
      cases h
      rw [List.append_nil]
    | truncatedStream | unknownOpcode => simp [decodeFrom, hd] at h

theorem decodeProgram_encodeProgram {p : List Instr} (hp : ∀ i ∈ p, i.wellFormed = true) :
    decodeProgram (encodeProgram p) = .ok p :=
  decodeFrom_encodeProgram hp le_rfl 0 []

theorem encodeProgram_of_decodeProgram {bs : List Byte} {p : List Instr} (h : decodeProgram bs = .ok p) :
    encodeProgram p = bs :=
  encodeProgram_of_decodeFrom le_rfl h

/-- The operand that R60's truncation leaves fits the field B. -/
theorem wellFormed_emod (operand : Int) : (Instr.loadConst (operand % 1024).toNat).wellFormed = true :=
  (wellFormed_loadConst _).2 (by omega)

/-- Settles O7: each direction by an induction over the decoder's run; any operand encodes as its ten-bit remainder. -/
theorem programRoundTrip : Obligations.ProgramRoundTrip := by
  refine ⟨fun p => decodeProgram_encodeProgram, fun bs p => encodeProgram_of_decodeProgram, fun operand => ?_⟩
  have hbytes : encodeConst operand = encodeProgram [.loadConst (operand % 1024).toNat] := by
    rw [encodeConst_emod, encodeProgram_cons, encodeProgram_nil, List.append_nil]
  rw [hbytes, decodeProgram_encodeProgram]
  simpa using wellFormed_emod operand

end Sys2Proof
end

section
/-! SUPPORT. The statements about first bytes and fields (spec/30_encoding.md R51, R53, R55, R57). -/

namespace Sys2Proof

open Machine

/-! ### How many first bytes each class has (R53) -/

/-- A class of the numbers below `N` that a list names has as many members as the list. -/
theorem countP_range_of_mem {N : Nat} {l : List Nat} {P : Nat → Bool} (hl : l.Nodup) (hlt : ∀ n ∈ l, n < N)
    (hP : ∀ n < N, (P n = true ↔ n ∈ l)) : (List.range N).countP P = l.length := by
  have hperm : ((List.range N).filter P).Perm l := by
    refine (List.perm_ext_iff_of_nodup (List.nodup_range.filter P) hl).2 fun n => ?_
    rw [List.mem_filter, List.mem_range]
    exact ⟨fun ⟨hn, h⟩ => (hP n hn).1 h, fun h => ⟨hlt n h, (hP n (hlt n h)).2 h⟩⟩
  rw [List.countP_eq_length_filter, hperm.length_eq]

/-- The class that is left when a list names the others. -/
theorem countP_range_of_not_mem {N k : Nat} {l : List Nat} {P : Nat → Bool} (hl : l.Nodup) (hlt : ∀ n ∈ l, n < N)
    (hk : k + l.length = N) (hP : ∀ n < N, (P n = true ↔ n ∉ l)) : (List.range N).countP P = k := by
  have hsplit := List.length_eq_countP_add_countP P (l := List.range N)
  have hrest := countP_range_of_mem (P := fun n => decide ¬P n = true) hl hlt fun n hn => by
    simp only [decide_eq_true_iff, hP n hn, not_not]
  rw [List.length_range, hrest] at hsplit
  omega

theorem oneByteOpcode_ofNat {n : Nat} (hn : n < 256) : OneByteOpcode (BitVec.ofNat 8 n) ↔ n ∈ [12, 27, 38] := by
  simp only [OneByteOpcode, ← BitVec.toNat_inj, BitVec.toNat_ofNat, List.mem_cons, List.not_mem_nil, or_false]
  omega

theorem mod_eq_14_iff_mem {n : Nat} (hn : n < 256) : n % 64 = 14 ↔ n ∈ [14, 78, 142, 206] := by
  simp only [List.mem_cons, List.not_mem_nil, or_false]
  omega

theorem toNat_byte {n : Nat} (hn : n < 256) : (BitVec.ofNat 8 n).toNat = n :=
  Nat.mod_eq_of_lt hn

/-- A byte is in the second class if it needs a second byte and then gives a LOAD_CONST. -/
theorem loadConstStart_ofNat_iff {n : Nat} (hn : n < 256) :
    (decodeFirst [BitVec.ofNat 8 n] = .truncatedStream ∧
      decodeFirst [BitVec.ofNat 8 n, 0#8] = .instr (.loadConst (n / 64)) []) ↔ n % 64 = 14 := by
  rw [decodeFirst_last_iff]
  constructor
  · rintro ⟨hb, hd⟩
    by_contra h
    rw [decodeFirst_unknown hb (by rwa [toNat_byte hn])] at hd
    cases hd
  · intro h
    rw [← toNat_byte hn] at h
    exact ⟨not_oneByteOpcode_of_mod h, by rw [decodeFirst_loadConst h, toNat_byte hn]; simp⟩

/-- A byte is in the third class if a word that begins with it is unknown. -/
theorem illegalStart_ofNat_iff {n : Nat} (hn : n < 256) :
    decodeFirst [BitVec.ofNat 8 n, 0#8] = .unknownOpcode (BitVec.ofNat 6 (n % 64)) ↔
      ¬ OneByteOpcode (BitVec.ofNat 8 n) ∧ ¬ n % 64 = 14 := by
  constructor
  · intro h
    obtain ⟨b0, b1, rest, hbs, hnone, -, hA⟩ := decodeFirst_eq_unknownOpcode.1 h
    cases hbs
    refine ⟨oneByteInstr_eq_none.1 hnone, fun h14 => hA ?_⟩
    rw [h14]
    rfl
  · rintro ⟨hb, h⟩
    rw [decodeFirst_unknown hb (by rwa [toNat_byte hn]), toNat_byte hn]

/-! ### The statements -/

/-- Settles O2: an equation of the decoder for each class; the counts come from the lists of the bytes of each class. -/
theorem firstByteClassification : Obligations.FirstByteClassification := by
  refine ⟨fun rest => ?_, fun b0 h => ?_, fun b0 hb h => ?_, ?_, ?_, ?_⟩
  · exact ⟨decodeFirst_of_oneByteInstr rfl rest, decodeFirst_of_oneByteInstr rfl rest,
      decodeFirst_of_oneByteInstr rfl rest⟩
  · have h14 := toNat_mod_eq_14_iff.2 h
    exact ⟨decodeFirst_last_iff.2 (not_oneByteOpcode_of_mod h14), decodeFirst_loadConst h14⟩
  · have h14 := mt toNat_mod_eq_14_iff.1 h
    exact ⟨h14, decodeFirst_last_iff.2 hb, decodeFirst_unknown hb h14⟩
  · exact countP_range_of_mem (l := [12, 27, 38]) (by decide) (by decide) fun n hn => by
      rw [decide_eq_true_iff, ne_eq, decodeFirst_last_iff, not_not, oneByteOpcode_ofNat hn]
  · exact countP_range_of_mem (l := [14, 78, 142, 206]) (by decide) (by decide) fun n hn => by
      rw [decide_eq_true_iff, loadConstStart_ofNat_iff hn, mod_eq_14_iff_mem hn]
  · exact countP_range_of_not_mem (l := [12, 27, 38] ++ [14, 78, 142, 206]) (by decide) (by decide) rfl fun n hn => by
      rw [decide_eq_true_iff, illegalStart_ofNat_iff hn, oneByteOpcode_ofNat hn, mod_eq_14_iff_mem hn,
        List.mem_append, not_or]

/-- Settles O9: the low six bits of a LOAD_CONST's first byte are 14; the decoder is a left inverse of the encoder. -/
theorem formatsNeverCollide : Obligations.FormatsNeverCollide := by
  refine ⟨fun operand => ?_, fun p q hp hq heq => ?_, fun b hb => ?_⟩
  · have h14 : (BitVec.ofNat 8 (14 + 64 * ((operand % 1024).toNat % 4))).toNat % 64 = 14 := by
      rw [BitVec.toNat_ofNat]
      omega
    exact ⟨_, _, (encodeConst_emod operand).trans (encode_loadConst (by omega)), h14, not_oneByteOpcode_of_mod h14⟩
  · have hok : ProgramDecode.ok p = .ok q := by
      rw [← decodeProgram_encodeProgram hp, heq, decodeProgram_encodeProgram hq]
    exact ProgramDecode.ok.inj hok
  · have hdec := decodeFirst_encode ((wellFormed_loadConst b).2 hb)
    rw [encode_loadConst hb] at hdec
    refine ⟨_, _, encode_loadConst hb, ?_, ?_, ?_, hdec⟩ <;>
      rw [← BitVec.toNat_inj, BitVec.toNat_ofNat, BitVec.toNat_ofNat] <;> omega

/-- Settles O3: each of the nine is no one-byte opcode, and its low six bits are not 14. -/
theorem lookAlikeBytesAreUnknown : Obligations.LookAlikeBytesAreUnknown := by
  refine fun b1 rest => ⟨?_, ?_, ?_⟩ <;> rintro b0 (rfl | rfl | rfl) <;>
    exact decodeFirst_unknown (by decide) (by decide) b1 rest

/-- Settles O4: the low byte is `word % 256` and the high byte `word / 256`, so both fields are numbers of the bytes. -/
theorem wordFieldsFromBytes : Obligations.WordFieldsFromBytes := by
  refine fun lo hi => ⟨?_, ?_, fieldB_assembleWord_toNat lo hi⟩
  · rw [fieldA_assembleWord]
    apply BitVec.eq_of_toNat_eq
    simp
  · apply BitVec.eq_of_toNat_eq
    have := lo.isLt
    rw [fieldB_assembleWord_toNat, BitVec.toNat_append, ← Nat.shiftLeft_add_eq_or_of_lt (BitVec.isLt _),
      BitVec.extractLsb'_toNat, Nat.shiftLeft_eq, Nat.shiftRight_eq_div_pow]
    omega

end Sys2Proof
end

section
/-! SUPPORT. The decode step's equations, one per outcome, and the stream's first bytes in terms of `CODE` and `CUR`
(spec/40_decoder.md R64 to R69). -/

namespace Sys2Proof.Machine

variable {s : State}

/-! ### The head of the stream -/

theorem State.liveBytes_of_end (hc : s.cur = s.codeLen) : s.liveBytes = [] := by
  rw [State.liveBytes, hc]
  exact List.drop_eq_nil_of_le (List.length_take_le _ _)

theorem State.liveBytes_of_byte {b : Byte} (hc : s.cur < s.codeLen) (hb : s.code[s.cur]? = some b) :
    s.liveBytes = b :: (s.code.take s.codeLen).drop (s.cur + 1) := by
  obtain ⟨hlt, rfl⟩ := List.getElem?_eq_some_iff.1 hb
  rw [State.liveBytes, List.drop_eq_getElem_cons (by rw [List.length_take]; omega), List.getElem_take]

theorem State.liveBytes_of_last {b : Byte} (hc : s.cur + 1 = s.codeLen) (hb : s.code[s.cur]? = some b) :
    s.liveBytes = [b] := by
  rw [State.liveBytes_of_byte (by omega) hb, hc, List.drop_eq_nil_of_le (List.length_take_le _ _)]

theorem State.liveBytes_of_word {lo hi : Byte} (hc : s.cur + 2 ≤ s.codeLen) (hlo : s.code[s.cur]? = some lo)
    (hhi : s.code[s.cur + 1]? = some hi) :
    s.liveBytes = lo :: hi :: (s.code.take s.codeLen).drop (s.cur + 2) := by
  have htail : (s.code.take s.codeLen).drop (s.cur + 1) = hi :: (s.code.take s.codeLen).drop (s.cur + 2) :=
    State.liveBytes_of_byte (s := { s with cur := s.cur + 1 }) hc hhi
  rw [State.liveBytes_of_byte (by omega) hlo, htail]

/-- Where the decoder finds a byte to read, `CUR` has not reached the end of the buffer. -/
theorem State.cur_ne_codeLen (h : decodeFirst s.liveBytes ≠ .endOfBuffer) : s.cur ≠ s.codeLen :=
  fun hc => h (decodeFirst_eq_endOfBuffer.2 (State.liveBytes_of_end hc))

/-! ### The step -/

theorem step_beginExecute (hp : s.phase = .decode) (hl : s.ConfigLegal) (hc : s.cur = s.codeLen) :
    step s = .next s.beginExecute := by
  rw [step_of_decode hp (State.configProblem_eq_none.2 hl), decodeStep, if_pos hc]

theorem step_emit (hp : s.phase = .decode) (hl : s.ConfigLegal) {i : Instr} {rest : List Byte}
    (hd : decodeFirst s.liveBytes = .instr i rest) : step s = .next (s.emit i) := by
  rw [step_of_decode hp (State.configProblem_eq_none.2 hl), decodeStep, if_neg (State.cur_ne_codeLen (by simp [hd]))]
  simp only [hd]

theorem step_decodeFault (hp : s.phase = .decode) (hl : s.ConfigLegal) {k : FaultKind} {info : Nat}
    (hk : DecodeFaultCause s k info) : step s = .next (s.raise k info) := by
  rw [step_of_decode hp (State.configProblem_eq_none.2 hl), decodeStep]
  cases hk with
  | truncated hd | unknown hd =>
    rw [if_neg (State.cur_ne_codeLen (by simp [hd]))]
    simp only [hd]

end Sys2Proof.Machine
end

section
/-! SUPPORT. The statements about single decode steps and about the decode phase of a run (spec/40_decoder.md R65 to
R69, R73, R74). -/

namespace Sys2Proof.Machine

variable {s t : State}

/-! ### One step (R66 to R69) -/

/-- Settles O10: whatever follows the opcode, the decoder reads its instruction, of length 1. -/
theorem decodeStepOneByteOpcode : Obligations.DecodeStepOneByteOpcode := by
  intro s b i hp hl hc hb hi
  have hread := decodeFirst_of_oneByteInstr (oneByteInstr_eq_some.2 hi) ((s.code.take s.codeLen).drop (s.cur + 1))
  rw [← State.liveBytes_of_byte hc hb] at hread
  rw [step_emit hp hl hread]
  rcases hi with ⟨-, rfl⟩ | ⟨-, rfl⟩ | ⟨-, rfl⟩ <;> rfl

/-- Settles O11: the one byte that is left is the whole stream. -/
theorem decodeStepTruncatedWord : Obligations.DecodeStepTruncatedWord := by
  intro s b hp hl hc hb hop
  have hread := decodeFirst_last_iff.2 hop
  rw [← State.liveBytes_of_last hc hb] at hread
  exact step_decodeFault hp hl (.truncated hread)

/-- Settles O12: the A field, of six bits, is the word modulo 64, which is the low byte modulo 64. -/
theorem decodeStepUnknownWord : Obligations.DecodeStepUnknownWord := by
  intro s lo hi hp hl hc hlo hhi hop hA
  have hread := decodeFirst_unknown hop (by omega) hi ((s.code.take s.codeLen).drop (s.cur + 2))
  rw [← State.liveBytes_of_word hc hlo hhi] at hread
  have hval : (BitVec.ofNat 6 (lo.toNat % 64)).toNat = (lo.toNat + 256 * hi.toNat) % 64 := by
    rw [BitVec.toNat_ofNat]
    omega
  rw [← hval]
  exact step_decodeFault hp hl (.unknown hread)

/-- Settles O13: the B field is the word divided by 64; the bytes of each operand are those of its encoding. -/
theorem decodeStepLoadConst : Obligations.DecodeStepLoadConst := by
  refine ⟨fun s lo hi hp hl hc hlo hhi hA => ?_, fun b hb => ?_⟩
  · have hread := decodeFirst_loadConst (b0 := lo) (by omega) hi ((s.code.take s.codeLen).drop (s.cur + 2))
    rw [← State.liveBytes_of_word hc hlo hhi] at hread
    have hval : hi.toNat * 4 + lo.toNat / 64 = (lo.toNat + 256 * hi.toNat) / 64 := by omega
    rw [← hval]
    refine ⟨step_emit hp hl hread, ?_⟩
    have := lo.isLt
    have := hi.isLt
    omega
  · refine ⟨BitVec.ofNat 8 (14 + 64 * (b % 4)), BitVec.ofNat 8 (b / 4), ?_⟩
    simp only [BitVec.toNat_ofNat]
    omega

/-! ### The end of the phase (R65) -/

/-- The program store is the decoding of the bytes consumed, in every state of every run. -/
theorem State.Inv.decodeProgram_consumed (h : s.Inv) : decodeProgram (s.code.take s.cur) = .ok s.prog := by
  rw [← h.progIsConsumed, decodeProgram_encodeProgram h.progWellFormed]

/-- Settles O14: the step by its equation; the program store by the invariant, all bytes being consumed. -/
theorem decodePhaseEndsAtCodeLen : Obligations.DecodePhaseEndsAtCodeLen := by
  refine ⟨fun s => step_beginExecute, fun s h hp hc => ?_, fun m before s hb => ?_⟩
  · rw [← hc]
    exact ⟨h.inv.nothingExecuted (.inl hp), h.inv.decodeProgram_consumed⟩
  · obtain ⟨hm, hl, rfl⟩ := hostBoot_next hb
    exact ⟨step_beginExecute rfl ⟨hm, hl⟩ rfl, rfl⟩

/-! ### Stack and data memory (R73) -/

theorem step_decode_frame (hp : s.phase = .decode) (hs : step s = .next t) :
    t.stack = s.stack ∧ t.mem = s.mem ∧ t.ip = s.ip := by
  cases step_cases hs with
  | beginExecute | emit | decodeFault => exact ⟨rfl, rfl, rfl⟩
  | endRun phase | exec phase => simp [hp] at phase

/-- Settles O15: the frame of a decode step, and what the invariant says of a state in which nothing was executed. -/
theorem decodingTouchesNoData : Obligations.DecodingTouchesNoData := by
  refine ⟨fun s t => step_decode_frame, fun s h hk => ?_⟩
  have hip := h.inv.nothingExecuted (.inr hk)
  obtain ⟨hstack, hmem⟩ := h.inv.untouched hip
  refine ⟨by rw [State.sp, hstack, List.length_nil], fun a => ?_, hip, h.inv.decodeProgram_consumed⟩
  rw [hmem, Memory.read_nil, Memory.unlisted]

/-! ### Termination (R74) -/

/-- The decode phase has ended: with the execute phase begun, or in one of the two decode faults. -/
def State.DecodeEnded (t : State) : Prop :=
  t.phase = .execute ∨ t.phase = .fault ∧ (t.fkind = .truncatedStream ∨ t.fkind = .unknownOpcode)

theorem State.DecodeEnded.phase_ne_decode (h : t.DecodeEnded) : t.phase ≠ .decode := by
  rcases h with h | ⟨h, -⟩ <;> simp [h]

/-- A decode step ends the phase or moves `CUR` forward. -/
theorem step_decodeEnded_or_cur_lt (hp : s.phase = .decode) (hs : step s = .next t) :
    t.DecodeEnded ∨ t.phase = .decode ∧ s.cur < t.cur := by
  cases step_cases hs with
  | beginExecute => exact .inl (.inl rfl)
  | emit => exact .inr ⟨hp, Nat.lt_add_of_pos_right (Instr.lengthBytes_pos _)⟩
  | decodeFault _ _ cause =>
    cases cause with
    | truncated => exact .inl (.inr ⟨rfl, .inl rfl⟩)
    | unknown => exact .inl (.inr ⟨rfl, .inr rfl⟩)
  | endRun phase | exec phase => simp [hp] at phase

/-- In a run a decode step always has a next state: before the end of the buffer there is a byte to read. -/
theorem State.Inv.exists_decode_step (h : s.Inv) (hp : s.phase = .decode) : ∃ t, step s = .next t := by
  have hl : s.ConfigLegal := ⟨h.memSizePos, h.codeLoaded⟩
  cases hd : decodeFirst s.liveBytes with
  | instr i rest => exact ⟨_, step_emit hp hl hd⟩
  | endOfBuffer =>
    have hlen := h.length_liveBytes
    have := h.curInStream
    rw [decodeFirst_eq_endOfBuffer.1 hd, List.length_nil] at hlen
    exact ⟨_, step_beginExecute hp hl (by omega)⟩
  | truncatedStream => exact ⟨_, step_decodeFault hp hl (.truncated hd)⟩
  | unknownOpcode a => exact ⟨_, step_decodeFault hp hl (.unknown hd)⟩

/-- By induction on a bound of the bytes left: each step ends the phase or leaves fewer. -/
theorem State.Inv.decode_terminates (h : s.Inv) (hp : s.phase = .decode) {k : Nat} (hk : s.codeLen ≤ s.cur + k) :
    ∃ (n : Nat) (t : State), n ≤ k + 1 ∧ runFor n s = .next t ∧ t.DecodeEnded := by
  induction k generalizing s with
  | zero =>
    have hc : s.cur = s.codeLen := Nat.le_antisymm h.curInStream hk
    exact ⟨1, _, le_rfl, runFor_succ (step_beginExecute hp ⟨h.memSizePos, h.codeLoaded⟩ hc) 0, .inl rfl⟩
  | succ k ih =>
    obtain ⟨t, hs⟩ := h.exists_decode_step hp
    rcases step_decodeEnded_or_cur_lt hp hs with hend | ⟨hpt, hlt⟩
    · exact ⟨1, t, by omega, runFor_succ hs 0, hend⟩
    · obtain ⟨n, u, hn, hrun, hend⟩ := ih (step_keeps_inv h hs) hpt (by rw [step_codeLen hs]; omega)
      exact ⟨n + 1, u, by omega, (runFor_succ hs n).trans hrun, hend⟩

/-- Settles O38: a boot leaves `CUR` at 0, so `CODE_LEN` bytes are left. -/
theorem decodePhaseTerminates : Obligations.DecodePhaseTerminates := by
  refine ⟨fun bytes codeLen memSize before s hb => ?_, fun s t hs hp hpt => ?_⟩
  · have hinv := hostBoot_inv hb
    obtain ⟨-, -, rfl⟩ := hostBoot_next hb
    exact hinv.decode_terminates rfl (Nat.le_add_left _ _)
  · rcases step_decodeEnded_or_cur_lt hp hs with hend | ⟨-, hlt⟩
    · exact absurd hpt hend.phase_ne_decode
    · exact hlt

end Sys2Proof.Machine
end

section
/-! SUPPORT. The execute step's equations, and what an execute step and a run of steps keep (spec/41_load_const.md R75,
R76). -/

namespace Sys2Proof.Machine

variable {s t : State}

/-! ### The step has a next state (R75, R76) -/

theorem step_endRun (hp : s.phase = .execute) (hl : s.ConfigLegal) (hi : s.ip = s.progLen) :
    step s = .next s.endRun := by
  have hdone : s.programDone = true := decide_eq_true hi
  rw [step_of_execute hp (State.configProblem_eq_none.2 hl), executeStep, if_pos hdone]

theorem step_entry (hp : s.phase = .execute) (hl : s.ConfigLegal) {i : Instr} (hi : s.prog[s.ip]? = some i) :
    step s = exec i s := by
  rw [step_of_execute hp (State.configProblem_eq_none.2 hl), executeStep_of_entry hi]

/-- Every instruction answers a next state, a fault being one (spec/60_exceptions.md R96). -/
theorem exists_exec_next (i : Instr) (s : State) : ∃ t, exec i s = .next t := by
  cases i with
  | loadConst b => exact ⟨_, rfl⟩
  | le => exact ⟨_, rfl⟩
  | writeMem | readMem =>
    simp only [exec, execWriteMem, execReadMem]
    split
    · exact ⟨_, rfl⟩
    · split <;> exact ⟨_, rfl⟩

/-- In a run an execute step always has a next state: `IP` is at a live entry or at the end of the program. -/
theorem State.Inv.exists_execute_step (h : s.Inv) (hp : s.phase = .execute) : ∃ t, step s = .next t := by
  have hl : s.ConfigLegal := ⟨h.memSizePos, h.codeLoaded⟩
  rcases h.ipInProgram.eq_or_lt with hi | hi
  · exact ⟨_, step_endRun hp hl hi⟩
  · obtain ⟨t, ht⟩ := exists_exec_next s.prog[s.ip] s
    exact ⟨t, (step_entry hp hl (List.getElem?_eq_getElem hi)).trans ht⟩

/-! ### What the next state is (R75, R76, R79) -/

/-- An instruction raises a fault, or completes: `PHASE` stays and `IP` moves by 1. -/
theorem ExecCase.fault_or_ip_succ {i : Instr} (h : ExecCase s i t) :
    t.phase = .fault ∨ t.phase = s.phase ∧ t.ip = s.ip + 1 := by
  cases h with
  | loadConst | readMem | writeMem => exact .inr ⟨rfl, rfl⟩
  | fault => exact .inl rfl

/-- An execute step ends the run or moves `IP` by 1 within the same program. -/
theorem step_terminal_or_ip_succ (hp : s.phase = .execute) (hs : step s = .next t) :
    t.terminal = true ∨ t.phase = .execute ∧ t.ip = s.ip + 1 ∧ t.progLen = s.progLen := by
  cases step_cases hs with
  | beginExecute phase | emit phase | decodeFault phase => simp [hp] at phase
  | endRun => exact .inl rfl
  | exec _ _ done =>
    obtain ⟨-, -, -, -, -, -, hprog⟩ := done.code_config_prog
    rcases done.fault_or_ip_succ with hf | ⟨hpt, hip⟩
    · exact .inl (by simp only [State.terminal, hf])
    · exact .inr ⟨hpt.trans hp, hip, by rw [State.progLen, hprog, State.progLen]⟩

/-- Only the end of the program leads to DONE: an instruction never does. -/
theorem step_done (hs : step s = .next t) (ht : t.phase = .done) : s.phase = .execute ∧ s.ip = s.progLen := by
  cases step_cases hs with
  | beginExecute => cases ht
  | emit phase => simp [phase] at ht
  | decodeFault => cases ht
  | endRun phase all => exact ⟨phase, all⟩
  | exec phase _ done =>
    rcases done.fault_or_ip_succ with hf | ⟨hpt, -⟩
    · simp [hf] at ht
    · simp [hpt, phase] at ht

/-! ### Runs of several steps -/

/-- What every step keeps, a run of steps keeps. -/
theorem runFor_keeps {P : State → Prop} (hP : ∀ {s t : State}, P s → step s = .next t → P t) {n : Nat} (hs : P s)
    (h : runFor n s = .next t) : P t := by
  induction n generalizing s with
  | zero => exact Host.Outcome.next.inj h ▸ hs
  | succ n ih =>
    cases hstep : step s with
    | next u => exact ih (hP hs hstep) ((runFor_succ hstep n).symm.trans h)
    | fault r => simp [runFor, hstep] at h
    | refused r => simp [runFor, hstep] at h

theorem runFor_codeLen {n : Nat} (h : runFor n s = .next t) : t.codeLen = s.codeLen :=
  runFor_keeps (P := fun u => u.codeLen = s.codeLen) (fun hu hs => (step_codeLen hs).trans hu) rfl h

end Sys2Proof.Machine
end

section
/-! SUPPORT. The statements about the end of a run (spec/41_load_const.md R76, R80). -/

namespace Sys2Proof.Machine

variable {s : State}

/-! ### Success (R76) -/

/-- Settles O25: the step by its equation, its converse by the cases of a step; an empty program leaves `IP` at 0, where
the invariant says that stack and memory are untouched. -/
theorem runEndsByExhaustion : Obligations.RunEndsByExhaustion := by
  refine ⟨fun s => step_endRun, fun s t => step_done, fun s h hp hprog => ?_⟩
  have hlen : s.progLen = 0 := by rw [State.progLen, hprog, List.length_nil]
  have hip : s.ip = 0 := Nat.le_zero.1 (hlen ▸ h.inv.ipInProgram)
  obtain ⟨hstack, hmem⟩ := h.inv.untouched hip
  refine ⟨step_endRun hp ⟨h.inv.memSizePos, h.inv.codeLoaded⟩ (hip.trans hlen.symm), hstack, fun a => ?_⟩
  rw [hmem, Memory.read_nil, Memory.unlisted]

/-! ### Termination (R80) -/

/-- By induction on a bound of the entries left: each step ends the run or leaves one fewer. -/
theorem State.Inv.execute_terminates (h : s.Inv) (hp : s.phase = .execute) {k : Nat} (hk : s.progLen ≤ s.ip + k) :
    ∃ (n : Nat) (t : State), n ≤ k + 1 ∧ runFor n s = .next t ∧ t.terminal = true := by
  induction k generalizing s with
  | zero =>
    have hi : s.ip = s.progLen := Nat.le_antisymm h.ipInProgram hk
    exact ⟨1, _, le_rfl, runFor_succ (step_endRun hp ⟨h.memSizePos, h.codeLoaded⟩ hi) 0, rfl⟩
  | succ k ih =>
    obtain ⟨t, hs⟩ := h.exists_execute_step hp
    rcases step_terminal_or_ip_succ hp hs with hend | ⟨hpt, hip, hlen⟩
    · exact ⟨1, t, by omega, runFor_succ hs 0, hend⟩
    · obtain ⟨n, u, hn, hrun, hend⟩ := ih (step_keeps_inv h hs) hpt (by omega)
      exact ⟨n + 1, u, by omega, (runFor_succ hs n).trans hrun, hend⟩

/-- The decode phase takes at most `CODE_LEN + 1` steps, and the execute phase as many again, a program having at most
`CODE_LEN` instructions. -/
theorem State.Inv.run_terminates (h : s.Inv) (hp : s.phase = .decode) :
    ∃ (n : Nat) (t : State), n ≤ 2 * s.codeLen + 2 ∧ runFor n s = .next t ∧ t.terminal = true := by
  obtain ⟨n, t, hn, hrun, hexec | ⟨hfault, -⟩⟩ := h.decode_terminates hp (Nat.le_add_left _ _)
  · have ht : t.Inv := runFor_keeps step_keeps_inv h hrun
    obtain ⟨m, u, hm, hrun', hend⟩ := ht.execute_terminates hexec (Nat.le_add_left _ _)
    have hlen : t.progLen ≤ s.codeLen := runFor_codeLen hrun ▸ ht.progLen_le
    exact ⟨n + m, u, by omega, (runFor_add hrun m).trans hrun', hend⟩
  · exact ⟨n, t, by omega, hrun, by simp only [State.terminal, hfault]⟩

/-- Settles O39: a step that stays in EXECUTE has not ended the run; the bounds are those of the execute phase and of
both phases together. -/
theorem everyRunTerminates : Obligations.EveryRunTerminates := by
  refine ⟨fun s t hs hp hpt => ?_, fun s h hp => h.inv.execute_terminates hp (Nat.le_add_left _ _),
    fun bytes codeLen memSize before s hb => ?_⟩
  · rcases step_terminal_or_ip_succ hp hs with hend | ⟨-, hip, -⟩
    · simp [State.terminal, hpt] at hend
    · exact hip
  · have hinv := hostBoot_inv hb
    obtain ⟨-, -, rfl⟩ := hostBoot_next hb
    exact hinv.run_terminates rfl

end Sys2Proof.Machine
end

section
/-! SUPPORT. The equations of READ_MEM and WRITE_MEM, one per outcome, in terms of the stack's list
(spec/42_memory_access.md R81 to R84). -/

namespace Sys2Proof.Machine

variable {s : State} {xs : List Nat} {a v : Nat}

/-! ### The two changes of the stack as record updates -/

theorem State.setTop_eq (hx : s.stack = xs ++ [a]) (v : Nat) : s.setTop v = { s with stack := xs ++ [v] } := by
  rw [State.setTop, hx, List.dropLast_concat]

theorem State.dropTwo_eq (hx : s.stack = xs ++ [a, v]) : s.dropTwo = { s with stack := xs } :=
  congrArg (fun st => { s with stack := st }) (State.dropTwo_of_stack hx)

/-! ### READ_MEM (R81, R82) -/

theorem exec_readMem_of_underflow (hx : s.stack = []) : exec .readMem s = .next (s.raise .stackUnderflow 0) := by
  simp only [exec, execReadMem, State.loadOperand_eq_none.2 hx]

theorem exec_readMem_of_operand (hx : s.stack = xs ++ [a]) :
    exec .readMem s = if s.inRange a then .next (s.setTop (s.mem.read a)).advance
      else .next (s.raise .addressOutOfRange a) := by
  simp only [exec, execReadMem, State.loadOperand_eq_some.2 ⟨xs, hx⟩]

theorem exec_readMem_of_inRange (hx : s.stack = xs ++ [a]) (hr : a < s.memSize) :
    exec .readMem s = .next (s.setTop (s.mem.read a)).advance := by
  rw [exec_readMem_of_operand hx, if_pos (State.inRange_iff.2 hr)]

theorem exec_readMem_of_outOfRange (hx : s.stack = xs ++ [a]) (hr : s.memSize ≤ a) :
    exec .readMem s = .next (s.raise .addressOutOfRange a) := by
  rw [exec_readMem_of_operand hx, if_neg (mt State.inRange_iff.1 hr.not_gt)]

/-! ### WRITE_MEM (R83, R84) -/

theorem exec_writeMem_of_underflow (hx : s.sp < 2) : exec .writeMem s = .next (s.raise .stackUnderflow 0) := by
  simp only [exec, execWriteMem, State.storeOperands_eq_none.2 hx]

theorem exec_writeMem_of_operands (hx : s.stack = xs ++ [a, v]) :
    exec .writeMem s = if s.inRange a then .next (s.storeCell a v).dropTwo.advance
      else .next (s.raise .addressOutOfRange a) := by
  simp only [exec, execWriteMem, State.storeOperands_eq_some.2 ⟨xs, hx⟩]

theorem exec_writeMem_of_inRange (hx : s.stack = xs ++ [a, v]) (hr : a < s.memSize) :
    exec .writeMem s = .next (s.storeCell a v).dropTwo.advance := by
  rw [exec_writeMem_of_operands hx, if_pos (State.inRange_iff.2 hr)]

theorem exec_writeMem_of_outOfRange (hx : s.stack = xs ++ [a, v]) (hr : s.memSize ≤ a) :
    exec .writeMem s = .next (s.raise .addressOutOfRange a) := by
  rw [exec_writeMem_of_operands hx, if_neg (mt State.inRange_iff.1 hr.not_gt)]

/-! ### The cells after a store (R36) -/

theorem Memory.read_write_same (m : Memory) (a v : Nat) : (m.write a v).read a = v := by
  rw [Memory.read_write, if_pos rfl]

theorem Memory.read_write_other (m : Memory) (v : Nat) {a b : Nat} (hb : b ≠ a) :
    (m.write a v).read b = m.read b := by
  rw [Memory.read_write, if_neg hb]

end Sys2Proof.Machine
end

section
/-! SUPPORT. The statements about READ_MEM and WRITE_MEM (spec/42_memory_access.md R81 to R84). -/

namespace Sys2Proof.Machine

/-- Settles O18: each outcome by its equation; the memory after a store is the one written at the address. -/
theorem writeMemStoresTopBelow : Obligations.WriteMemStoresTopBelow := by
  refine ⟨fun s xs addr value hx hr => ⟨s.mem.write addr value, ?_, Memory.read_write_same _ _ _,
      fun b hb => Memory.read_write_other _ _ hb⟩,
    fun s hx => exec_writeMem_of_underflow hx,
    fun s xs addr value hx hr => exec_writeMem_of_outOfRange hx hr, rfl⟩
  have hstore : (s.storeCell addr value).stack = xs ++ [addr, value] := hx
  rw [exec_writeMem_of_inRange hx hr, State.dropTwo_eq hstore]
  rfl

/-- Settles O17: each outcome by its equation; after reset no cell is listed. -/
theorem readMemReplacesAddressByCell : Obligations.ReadMemReplacesAddressByCell := by
  refine ⟨fun s xs addr hx hr => ?_, fun s hx => exec_readMem_of_underflow hx,
    fun s xs addr hx hr => exec_readMem_of_outOfRange hx hr, fun a => Memory.read_nil a, rfl⟩
  rw [exec_readMem_of_inRange hx hr, State.setTop_eq hx]
  rfl

end Sys2Proof.Machine
end

section
/-! SUPPORT. A step into phase FAULT is a fault entry, with its cause (spec/60_exceptions.md R87, R96). -/

namespace Sys2Proof.Machine

/-- What a step that ends in phase FAULT can be. -/
inductive StepFault (s : State) : State → Prop where
  | decode {k : FaultKind} {info : Nat} (phase : s.phase = .decode) (more : s.cur ≠ s.codeLen)
      (cause : DecodeFaultCause s k info) : StepFault s (s.raise k info)
  | exec {i : Instr} {k : FaultKind} {info : Nat} (phase : s.phase = .execute) (entry : s.prog[s.ip]? = some i)
      (cause : ExecFaultCause s i k info) : StepFault s (s.raise k info)

variable {s t : State}

theorem step_fault_cases (h : step s = .next t) (ht : t.phase = .fault) : StepFault s t := by
  cases step_cases h with
  | beginExecute | endRun => cases ht
  | emit phase => cases phase.symm.trans ht
  | decodeFault phase more cause => exact .decode phase more cause
  | exec phase entry done =>
    cases done with
    | loadConst | readMem | writeMem => cases phase.symm.trans ht
    | fault cause => exact .exec phase entry cause

end Sys2Proof.Machine
end

section
/-! SUPPORT. The statement about LE (spec/43_le.md R85). -/

namespace Sys2Proof.Machine

theorem exec_le (s : State) : exec .le s = .next (s.raise .unimplementedOpcode 0) := rfl

/-- Settles O19: LE's one outcome and its byte; of the causes a fault can have, LE's alone is UnimplementedOpcode. -/
theorem leAlwaysRaisesUnimplemented : Obligations.LeAlwaysRaisesUnimplemented := by
  refine ⟨exec_le, rfl, decodeFirst_of_oneByteInstr rfl, fun s t hs ht hk => ?_⟩
  cases step_fault_cases hs ht with
  | decode _ _ cause => cases cause <;> cases hk
  | exec phase entry cause =>
    cases cause with
    | le => exact ⟨phase, entry⟩
    | loadUnderflow | storeUnderflow | loadRange | storeRange => cases hk

end Sys2Proof.Machine
end

section
/-! SUPPORT. The statements about the causes of faults and their priority (spec/60_exceptions.md R87, R95). -/

namespace Sys2Proof.Machine

variable {s : State}

/-! ### Where a decode fault stands in the stream (R67, R68) -/

theorem State.ConfigLegal.length_liveBytes (hl : s.ConfigLegal) : s.liveBytes.length = s.codeLen - s.cur := by
  rw [State.liveBytes, List.length_drop, List.length_take, Nat.min_eq_left hl.2]

/-- The first byte read is the one at `CUR`. -/
theorem State.code_cur_of_liveBytes {b : Byte} {rest : List Byte} (h : s.liveBytes = b :: rest) :
    s.code[s.cur]? = some b := by
  have hhead : ((s.code.take s.codeLen).drop s.cur)[0]? = some b := congrArg (·[0]?) h
  rw [List.getElem?_drop, Nat.add_zero, List.getElem?_take, Option.ite_none_right_eq_some] at hhead
  exact hhead.2

theorem State.ConfigLegal.last_byte_of_truncatedStream (hl : s.ConfigLegal)
    (hd : decodeFirst s.liveBytes = .truncatedStream) :
    s.cur + 1 = s.codeLen ∧ ∃ b : Byte, s.code[s.cur]? = some b ∧ ¬ OneByteOpcode b := by
  obtain ⟨b, hlive, hop⟩ := decodeFirst_eq_truncatedStream.1 hd
  have hlen : 1 = s.codeLen - s.cur := by rw [← hl.length_liveBytes, hlive, List.length_singleton]
  exact ⟨by omega, b, State.code_cur_of_liveBytes hlive, oneByteInstr_eq_none.1 hop⟩

theorem State.ConfigLegal.word_of_unknownOpcode (hl : s.ConfigLegal) {a : BitVec 6}
    (hd : decodeFirst s.liveBytes = .unknownOpcode a) :
    s.cur + 2 ≤ s.codeLen ∧ ∃ lo : Byte, s.code[s.cur]? = some lo ∧ ¬ OneByteOpcode lo ∧
      lo.toNat % 64 ≠ 14 ∧ a.toNat = lo.toNat % 64 := by
  obtain ⟨lo, hi, rest, hlive, hop, rfl, hA⟩ := decodeFirst_eq_unknownOpcode.1 hd
  have hlen : rest.length + 2 = s.codeLen - s.cur := by rw [← hl.length_liveBytes, hlive]; rfl
  refine ⟨by omega, lo, State.code_cur_of_liveBytes hlive, oneByteInstr_eq_none.1 hop,
    mt (fieldA_assembleWord_eq_opLoadConst hi).2 hA, ?_⟩
  rw [fieldA_toNat, assembleWord_toNat]
  omega

/-! ### The fault table (R87) -/

/-- Settles O29: a step into FAULT is a fault entry, and each cause of one is a row of the table. -/
theorem everyFaultHasItsCause : Obligations.EveryFaultHasItsCause := by
  intro s t hs ht
  have hl : s.ConfigLegal := State.configProblem_eq_none.1 (step_next hs).1
  cases step_fault_cases hs ht with
  | decode phase _ cause =>
    refine ⟨rfl, rfl, ?_⟩
    cases cause with
    | unknown read => exact .inl ⟨rfl, phase, hl.word_of_unknownOpcode read⟩
    | truncated read =>
      obtain ⟨hcur, hbyte⟩ := hl.last_byte_of_truncatedStream read
      exact .inr (.inl ⟨rfl, phase, hcur, rfl, hbyte⟩)
  | exec phase entry cause =>
    refine ⟨rfl, rfl, .inr (.inr ?_)⟩
    cases cause with
    | loadUnderflow stack => exact .inl ⟨rfl, phase, rfl, .inl ⟨entry, by simp [State.sp, stack]⟩⟩
    | storeUnderflow stack => exact .inl ⟨rfl, phase, rfl, .inr ⟨entry, stack⟩⟩
    | loadRange stack range => exact .inr (.inl ⟨rfl, phase, range, .inl ⟨entry, _, stack⟩⟩)
    | storeRange stack range => exact .inr (.inl ⟨rfl, phase, range, .inr ⟨entry, _, _, stack⟩⟩)
    | le => exact .inr (.inr ⟨rfl, phase, rfl, entry⟩)

/-! ### Priority (R95) -/

/-- Settles O32: with too few items the outcome is StackUnderflow by the depth alone; LE and LOAD_CONST have one outcome
each. -/
theorem underflowBeatsOutOfRange : Obligations.UnderflowBeatsOutOfRange := by
  refine ⟨fun s t x hx h => ?_, fun s t hx h => ?_, fun s t h => ?_, fun s t b h => ?_⟩
  · rw [exec_writeMem_of_underflow (by simp [State.sp, hx])] at h
    cases h
    rfl
  · rw [exec_readMem_of_underflow hx] at h
    cases h
    rfl
  · rw [exec_le] at h
    cases h
    rfl
  · cases exec_cases h with
    | loadConst => exact ⟨rfl, rfl⟩
    | fault cause => cases cause

end Sys2Proof.Machine
end

section
/-! SUPPORT. A case of a step is the step: the converse of `step_cases`, so that a step can be carried from one state to
another case by case. -/

namespace Sys2Proof.Machine

variable {s t : State}

theorem ExecFaultCause.exec_eq {i : Instr} {k : FaultKind} {info : Nat} (h : ExecFaultCause s i k info) :
    exec i s = .next (s.raise k info) := by
  cases h with
  | le => exact exec_le s
  | loadUnderflow stack => exact exec_readMem_of_underflow stack
  | storeUnderflow stack => exact exec_writeMem_of_underflow stack
  | loadRange stack range => exact exec_readMem_of_outOfRange stack range
  | storeRange stack range => exact exec_writeMem_of_outOfRange stack range

theorem ExecCase.exec_eq {i : Instr} (h : ExecCase s i t) : exec i s = .next t := by
  cases h with
  | loadConst => rfl
  | readMem stack range => exact exec_readMem_of_inRange stack range
  | writeMem stack range => exact exec_writeMem_of_inRange stack range
  | fault cause => exact cause.exec_eq

theorem StepCase.step_eq (h : StepCase s t) (hl : s.ConfigLegal) : step s = .next t := by
  cases h with
  | beginExecute phase all => exact step_beginExecute phase hl all
  | emit phase _ read => exact step_emit phase hl read
  | decodeFault phase _ cause => exact step_decodeFault phase hl cause
  | endRun phase all => exact step_endRun phase hl all
  | exec phase entry done => exact (step_entry phase hl entry).trans done.exec_eq

end Sys2Proof.Machine
end

section
/-! SUPPORT. The statement about the sampled configuration (spec/70_reset_and_hazards.md R105): no case of a step names
`CFG_MEM_SIZE` or `CFG_CODE_LEN`, so each case is the same case after both are written. -/

namespace Sys2Proof.Machine

variable {s t : State}

theorem DecodeFaultCause.writeCfg {k : FaultKind} {info : Nat} (h : DecodeFaultCause s k info) (m c : Nat) :
    DecodeFaultCause ((s.writeCfgMemSize m).writeCfgCodeLen c) k info := by
  cases h with
  | truncated read => exact .truncated read
  | unknown read => exact .unknown read

theorem ExecFaultCause.writeCfg {i : Instr} {k : FaultKind} {info : Nat} (h : ExecFaultCause s i k info) (m c : Nat) :
    ExecFaultCause ((s.writeCfgMemSize m).writeCfgCodeLen c) i k info := by
  cases h with
  | le => exact .le
  | loadUnderflow stack => exact .loadUnderflow stack
  | storeUnderflow stack => exact .storeUnderflow stack
  | loadRange stack range => exact .loadRange stack range
  | storeRange stack range => exact .storeRange stack range

theorem ExecCase.writeCfg {i : Instr} (h : ExecCase s i t) (m c : Nat) :
    ExecCase ((s.writeCfgMemSize m).writeCfgCodeLen c) i ((t.writeCfgMemSize m).writeCfgCodeLen c) := by
  cases h with
  | loadConst b => exact .loadConst b
  | readMem stack range => exact .readMem stack range
  | writeMem stack range => exact .writeMem stack range
  | fault cause => exact .fault (cause.writeCfg m c)

theorem StepCase.writeCfg (h : StepCase s t) (m c : Nat) :
    StepCase ((s.writeCfgMemSize m).writeCfgCodeLen c) ((t.writeCfgMemSize m).writeCfgCodeLen c) := by
  cases h with
  | beginExecute phase all => exact .beginExecute phase all
  | emit phase more read => exact .emit phase more read
  | decodeFault phase more cause => exact .decodeFault phase more (cause.writeCfg m c)
  | endRun phase all => exact .endRun phase all
  | exec phase entry done => exact .exec phase entry (done.writeCfg m c)

/-- Writing the configuration registers before a step or after it gives the same next state. -/
theorem step_writeCfg (h : step s = .next t) (m c : Nat) :
    step ((s.writeCfgMemSize m).writeCfgCodeLen c) = .next ((t.writeCfgMemSize m).writeCfgCodeLen c) :=
  ((step_cases h).writeCfg m c).step_eq (State.configProblem_eq_none.1 (step_next h).1)

/-- Settles O45: writing one register is writing both, the other with the value it holds before and after the step. -/
theorem configurationIsSampledAtReset : Obligations.ConfigurationIsSampledAtReset := by
  refine ⟨fun s => ⟨s.applyReset_memSize, s.applyReset_codeLen⟩, fun s t n h => ?_,
    fun s t h => ⟨step_memSize h, step_codeLen h⟩⟩
  obtain ⟨-, -, -, hcfgCodeLen, hcfgMemSize, -⟩ := storesNeverReachCode s t h
  refine ⟨(step_writeCfg h n s.cfgCodeLen).trans ?_, (step_writeCfg h s.cfgMemSize n).trans ?_⟩
  · rw [← hcfgCodeLen]
    rfl
  · rw [← hcfgMemSize]
    rfl

end Sys2Proof.Machine
end

section
/-! SUPPORT. The statements about one instruction and its bytes (spec/30_encoding.md R45, R50, R60). -/

namespace Sys2Proof

/-- Settles O5: per class of instruction, from the decoder's equation for its first byte. -/
theorem decodeOfEncodeIsIdentity : Obligations.DecodeOfEncodeIsIdentity :=
  fun _ rest h => decodeFirst_encode h rest

/-- Settles O6: from what an instruction read says about the bytes taken. -/
theorem encodeOfDecodeIsIdentity : Obligations.EncodeOfDecodeIsIdentity :=
  fun _ _ _ => decodeFirst_instr_encode

/-- The encoder's word of any operand: opcode 14 below the operand's ten low bits (R60). -/
theorem constWord_toNat_emod (operand : Int) : (constWord operand).toNat = 14 + 64 * (operand % 1024).toNat := by
  rw [constWord_emod, constWord_toNat (by omega)]

/-- Settles O8: the encoder keeps the operand modulo 1024, which the decoder gives back. -/
theorem encoderTruncatesOperands : Obligations.EncoderTruncatesOperands := by
  refine ⟨fun operand => ⟨?_, encodeConst_emod operand, ?_, fun rest => ?_⟩,
    encodeConst_emod 1029, encodeConst_emod 5000, encodeConst_emod (-1)⟩
  · rw [constWord_toNat_emod]
    omega
  · rw [constWord_toNat_emod]
    omega
  · rw [encodeConst_emod]
    exact decodeFirst_encode (wellFormed_emod operand) rest

/-- Settles O1: each sequence is the encoding of its instruction, so this is the decoder evaluated on eight inputs. -/
theorem specWordsDecode : Obligations.SpecWordsDecode := by
  unfold Obligations.SpecWordsDecode
  decide

end Sys2Proof
end

section
/-! SUPPORT. The statements about the invariant of every run (spec/10_state.md section 8). -/

namespace Sys2Proof.Machine

variable {s : State}

/-- Settles O33: by the cases of a step, a lemma about the invariant for each change of state. -/
theorem stepKeepsTheInvariant : Obligations.StepKeepsTheInvariant :=
  fun _ _ => step_keeps_inv

/-- The reset state is a reset of itself, and its configuration is legal (R28). -/
theorem reset_inv : State.reset.Inv :=
  State.applyReset_inv (s := State.reset) (by decide) (by decide)

/-- Settles O34: reset and boot sample a legal configuration; the invariant names no configuration register. -/
theorem bootEstablishesTheInvariant : Obligations.BootEstablishesTheInvariant :=
  ⟨reset_inv, fun _ _ _ _ _ => hostBoot_inv, fun _ n h => ⟨h.writeCfgMemSize n, h.writeCfgCodeLen n⟩⟩

/-! ### No step is enabled after a run (R21), and every step of a run is answered -/

theorem step_of_done (hp : s.phase = .done) : step s = .fault .runDone := by
  simp only [step, hp]

theorem step_of_fault (hp : s.phase = .fault) : step s = .fault .runFaulted := by
  simp only [step, hp]

/-- Settles O35: in DECODE and EXECUTE a step has a next state, in DONE and FAULT it answers that no step is enabled. -/
theorem runsAreNeverRefused : Obligations.RunsAreNeverRefused := by
  intro s h r
  cases hp : s.phase with
  | decode =>
    obtain ⟨t, ht⟩ := h.exists_decode_step hp
    simp [ht]
  | execute =>
    obtain ⟨t, ht⟩ := h.exists_execute_step hp
    simp [ht]
  | done => simp [step_of_done hp]
  | fault => simp [step_of_fault hp]

/-- Settles O43: at the end of the program every entry has been passed, and the invariant says that no LE has. -/
theorem noSuccessfulRunHoldsLe : Obligations.NoSuccessfulRunHoldsLe := by
  intro s h hp
  have hnone := h.inv.noLePassed
  rwa [h.inv.executedAll hp, State.progLen, List.take_length] at hnone

end Sys2Proof.Machine
end

section
/-! SUPPORT. What instructions and steps leave unchanged (spec/42_memory_access.md, spec/60_exceptions.md R96, R97). -/

namespace Sys2Proof.Machine

variable {s t : State}

theorem ExecFaultCause.kind_ne_none {i : Instr} {k : FaultKind} {info : Nat} (h : ExecFaultCause s i k info) :
    k ≠ .none := by
  cases h <;> simp

theorem DecodeFaultCause.kind_ne_none {k : FaultKind} {info : Nat} (h : DecodeFaultCause s k info) : k ≠ .none := by
  cases h <;> simp

/-- Settles O20: only WRITE_MEM stores, and an instruction that completes leaves the status registers. -/
theorem nonStoringFormsFrame : Obligations.NonStoringFormsFrame := by
  intro i s t hi h
  have hcase := exec_cases h
  obtain ⟨code, codeLen, cfgCodeLen, cfgMemSize, memSize, cur, prog⟩ := hcase.code_config_prog
  refine ⟨fun a => ?_, code, codeLen, cfgCodeLen, cfgMemSize, memSize, cur, prog, ?_⟩
  · cases hcase with
    | loadConst | readMem | fault => rfl
    | writeMem => exact absurd rfl hi
  · cases hcase with
    | loadConst | readMem | writeMem => exact .inl ⟨rfl, rfl, rfl⟩
    | fault cause => exact .inr ⟨rfl, cause.kind_ne_none, rfl, rfl⟩

/-- Settles O21: WRITE_MEM completes, with one cell written and its two operands gone, or faults. -/
theorem writeMemFrame : Obligations.WriteMemFrame := by
  intro s t h
  have hcase := exec_cases h
  obtain ⟨code, codeLen, cfgCodeLen, cfgMemSize, memSize, cur, prog⟩ := hcase.code_config_prog
  cases hcase with
  | @writeMem xs a v stack =>
    have hops : s.storeOperands = some (a, v) := State.storeOperands_eq_some.2 ⟨xs, stack⟩
    have hrest : (s.storeCell a v).dropTwo.stack = xs := State.dropTwo_of_stack (s := s.storeCell a v) stack
    refine ⟨fun b w hb c hc => ?_, by simp [hops], code, codeLen, cfgCodeLen, cfgMemSize, memSize, cur, prog,
      .inl ⟨rfl, rfl, rfl, a, v, ?_⟩⟩
    · cases hops.symm.trans hb
      exact Memory.read_write_other s.mem v hc
    · rw [State.advance_stack, hrest, stack]
  | fault cause =>
    exact ⟨fun _ _ _ _ _ => rfl, fun _ _ => rfl, code, codeLen, cfgCodeLen, cfgMemSize, memSize, cur, prog,
      .inr ⟨rfl, cause.kind_ne_none, rfl, rfl, fun _ => rfl⟩⟩

/-- Settles O22: the store's memory is the one written at the address, and a load reads it. -/
theorem readSeesLatestWrite : Obligations.ReadSeesLatestWrite := by
  intro s t u xs ys a v c hs ha hw hmem hsize hu hc
  rw [exec_writeMem_of_inRange hs ha] at hw
  cases hw
  have hread : u.mem.read c = if c = a then v else s.mem.read c := by
    rw [hmem]
    exact Memory.read_write s.mem a v c
  rw [exec_readMem_of_inRange hu (hsize ▸ hc), State.setTop_eq hu, hread]
  rfl

/-- Settles O30: a step into FAULT is a fault entry, which writes the three status registers. -/
theorem faultsArePrecise : Obligations.FaultsArePrecise := by
  intro s t h ht
  cases step_fault_cases h ht with
  | decode _ _ cause => exact ⟨cause.kind_ne_none, rfl⟩
  | exec _ _ cause => exact ⟨cause.kind_ne_none, rfl⟩

end Sys2Proof.Machine
end

section
/-! SUPPORT. The statements about the sequence of steps (spec/10_state.md R16, R17, R21; spec/41_load_const.md R75). -/

namespace Sys2Proof.Machine

variable {s t : State}

/-- Settles O26: by the cases of a step; an instruction leaves `PHASE` or faults. -/
theorem phaseTransitions : Obligations.PhaseTransitions := by
  refine ⟨⟨rfl, rfl, rfl, rfl⟩, fun s t h => ?_, fun s => step_of_done, fun s => step_of_fault⟩
  cases step_cases h with
  | beginExecute phase => exact .inl ⟨phase, .inr (.inl rfl)⟩
  | emit phase => exact .inl ⟨phase, .inl phase⟩
  | decodeFault phase => exact .inl ⟨phase, .inr (.inr rfl)⟩
  | endRun phase => exact .inr ⟨phase, .inr (.inl rfl)⟩
  | exec phase _ done =>
    rcases done.fault_or_ip_succ with hf | ⟨hpt, -⟩
    · exact .inr ⟨phase, .inr (.inr hf)⟩
    · exact .inr ⟨phase, .inl (hpt.trans phase)⟩

/-- Settles O27: by the cases of a step; of an instruction, that it completes or faults. -/
theorem countersMoveForward : Obligations.CountersMoveForward := by
  intro s t h
  cases step_cases h with
  | beginExecute phase | emit phase | decodeFault phase | endRun phase => simp [phase]
  | exec phase _ done =>
    cases done with
    | loadConst | readMem | writeMem | fault => simp [phase]

/-- Settles O23: the equations of an execute step at a live entry and of a decode step that reads an instruction. -/
theorem stepRunsFetchedInstruction : Obligations.StepRunsFetchedInstruction :=
  ⟨fun _ _ hp hl hi => step_entry hp hl hi, fun _ _ _ hp hl hd => step_emit hp hl hd⟩

/-- Settles O16: LOAD_CONST has one outcome; its bytes are those of the encoder's word. -/
theorem loadConstPushesItsOperand : Obligations.LoadConstPushesItsOperand :=
  ⟨fun _ _ => rfl, fun _ => encode_loadConst, wellFormed_loadConst⟩

theorem State.withFetchWord_of_decodes {nbits w : Nat} {i : Instr} (h : decodeTableWord nbits w = some i) :
    s.withFetchWord nbits w = s.placeDecoded i ((tableBytes nbits w).take i.lengthBytes) := by
  simp only [State.withFetchWord, State.placeTableWord, h]

/-- Settles O24: the placed state is in EXECUTE with the instruction at `IP`, all its bytes being placed. -/
theorem placedWordIsRunNext : Obligations.PlacedWordIsRunNext := by
  intro s nbits w i hm h
  rw [State.withFetchWord_of_decodes h]
  have hlegal : (s.placeDecoded i ((tableBytes nbits w).take i.lengthBytes)).ConfigLegal := ⟨hm, le_rfl⟩
  exact ⟨step_entry (State.placeDecoded_phase ..) hlegal rfl, rfl, rfl⟩

end Sys2Proof.Machine
end

section
/-! SUPPORT. Bytes beyond the stream play no part in a step (spec/40_decoder.md R72): every case of a step names the
code by its live bytes only. -/

namespace Sys2Proof.Machine

variable {s t : State} {other : List Byte}

theorem State.liveBytes_placeCode (h : other.take s.codeLen = s.code.take s.codeLen) :
    (s.placeCode other).liveBytes = s.liveBytes :=
  congrArg (List.drop s.cur) h

theorem DecodeFaultCause.placeCode {k : FaultKind} {info : Nat} (h : DecodeFaultCause s k info)
    (hlive : (s.placeCode other).liveBytes = s.liveBytes) : DecodeFaultCause (s.placeCode other) k info := by
  cases h with
  | truncated read => exact .truncated (hlive ▸ read)
  | unknown read => exact .unknown (hlive ▸ read)

theorem ExecFaultCause.placeCode {i : Instr} {k : FaultKind} {info : Nat} (h : ExecFaultCause s i k info) :
    ExecFaultCause (s.placeCode other) i k info := by
  cases h with
  | le => exact .le
  | loadUnderflow stack => exact .loadUnderflow stack
  | storeUnderflow stack => exact .storeUnderflow stack
  | loadRange stack range => exact .loadRange stack range
  | storeRange stack range => exact .storeRange stack range

theorem ExecCase.placeCode {i : Instr} (h : ExecCase s i t) :
    ExecCase (s.placeCode other) i (t.placeCode other) := by
  cases h with
  | loadConst b => exact .loadConst b
  | readMem stack range => exact .readMem stack range
  | writeMem stack range => exact .writeMem stack range
  | fault cause => exact .fault cause.placeCode

theorem StepCase.placeCode (h : StepCase s t) (hlive : (s.placeCode other).liveBytes = s.liveBytes) :
    StepCase (s.placeCode other) (t.placeCode other) := by
  cases h with
  | beginExecute phase all => exact .beginExecute phase all
  | emit phase more read => exact .emit phase more (hlive ▸ read)
  | decodeFault phase more cause => exact .decodeFault phase more (cause.placeCode hlive)
  | endRun phase all => exact .endRun phase all
  | exec phase entry done => exact .exec phase entry done.placeCode

/-- Settles O46: the live bytes of the two buffers are the same, and so are the cases of the step. -/
theorem bytesBeyondCodeLenAreNeverRead : Obligations.BytesBeyondCodeLenAreNeverRead := by
  intro s t other h hlen htake
  have hmem : 0 < s.memSize := (State.configProblem_eq_none.1 (step_next h).1).1
  exact ((step_cases h).placeCode (State.liveBytes_placeCode htake)).step_eq ⟨hmem, hlen⟩

end Sys2Proof.Machine
end

section
/-! SUPPORT. The statements about the host's moves and reads (spec/70_reset_and_hazards.md R107 to R111). -/

namespace Sys2Proof.Machine

variable {s : State}

/-! ### The phases of a run (R109) -/

theorem State.terminal_iff : s.terminal = true ↔ s.phase = .done ∨ s.phase = .fault := by
  cases hp : s.phase <;> simp [State.terminal, hp]

theorem State.terminal_eq_false_iff : s.terminal = false ↔ s.phase = .decode ∨ s.phase = .execute := by
  cases hp : s.phase <;> simp [State.terminal, hp]

/-! ### An illegal configuration (R107) -/

theorem State.configProblem_of_memSize (hm : s.memSize = 0) : s.configProblem = some .memSizeNotPositive :=
  if_pos hm

theorem State.configProblem_of_code (hm : 0 < s.memSize) (hc : s.code.length < s.codeLen) :
    s.configProblem = some .codeNotLoaded := by
  rw [State.configProblem, if_neg hm.ne', if_pos hc]

theorem step_of_configProblem {r : Refusal} (hp : s.terminal = false) (hr : s.configProblem = some r) :
    step s = .refused r := by
  rcases State.terminal_eq_false_iff.1 hp with hp | hp <;> simp only [step, hp, hr]

theorem hostBoot_of_configProblem {bytes : List Byte} {codeLen memSize : Nat} {r : Refusal}
    (hr : (((s.placeCode bytes).writeCfgCodeLen codeLen).writeCfgMemSize memSize).applyReset.configProblem = some r) :
    hostBoot bytes codeLen memSize s = .refused r := by
  simp only [hostBoot, hr]

/-- Settles O47: boot and step both ask what makes the sampled configuration illegal, before anything else. -/
theorem illegalConfigurationIsRefused : Obligations.IllegalConfigurationIsRefused :=
  ⟨fun _ _ _ => hostBoot_of_configProblem (State.configProblem_of_memSize rfl),
    fun _ _ _ _ hm hc => hostBoot_of_configProblem (State.configProblem_of_code hm hc),
    fun _ hp hm => step_of_configProblem hp (State.configProblem_of_memSize hm),
    fun _ hp hm hc => step_of_configProblem hp (State.configProblem_of_code hm hc)⟩

/-! ### What the host reads (R109, R110) -/

theorem hostReadMem_of_lt (ht : s.terminal = true) {a : Nat} (ha : a < s.memSize) :
    hostReadMem s a = some (s.mem.read a) := by
  simp [hostReadMem, ht, ha]

theorem hostReadMem_of_le {a : Nat} (ha : s.memSize ≤ a) : hostReadMem s a = none := by
  simp [hostReadMem, ha]

theorem hostReadStack_of_terminal (ht : s.terminal = true) (i : Nat) : hostReadStack s i = s.stack[i]? := by
  rw [hostReadStack, if_pos ht]

theorem hostReads_of_running (ht : s.terminal = false) :
    hostStatus s = none ∧ (∀ a, hostReadMem s a = none) ∧ ∀ i, hostReadStack s i = none := by
  simp [hostStatus, hostReadMem, hostReadStack, ht]

theorem runResult_of_done (hp : s.phase = .done) :
    runResult s = some { memory := (List.range s.memSize).map s.mem.read, stack := s.stack } := by
  simp only [runResult, hp]

theorem runResult_of_ne_done (hp : s.phase ≠ .done) : runResult s = none := by
  cases h : s.phase with
  | done => exact absurd h hp
  | decode | execute | fault => simp only [runResult, h]

/-- Settles O48: each read by its equation in a terminal phase, and outside one or out of range none. -/
theorem hostReadsInTerminalPhases : Obligations.HostReadsInTerminalPhases := by
  refine ⟨fun s hp => ?_, fun s hp => ?_, fun s hp => ?_, fun s hp => runResult_of_ne_done (by simp [hp])⟩
  · have ht := State.terminal_iff.2 hp
    refine ⟨if_pos ht, fun a => hostReadMem_of_lt ht, fun a => hostReadMem_of_le, fun i v hv => ?_, fun i hi => ?_⟩
    · rw [hostReadStack_of_terminal ht, hv]
    · rw [hostReadStack_of_terminal ht]
      exact List.getElem?_eq_none hi
  · obtain ⟨hstatus, hmem, hstack⟩ := hostReads_of_running (State.terminal_eq_false_iff.2 hp)
    exact ⟨hstatus, hmem, hstack, runResult_of_ne_done (by rcases hp with hp | hp <;> simp [hp])⟩
  · exact ⟨_, runResult_of_done hp, rfl, by simp, fun a ha => by simp [ha]⟩

/-! ### What the host does during a run (R111) -/

/-- Settles O49: a configuration write asks for a terminal phase; a legal boot is the reset of the loaded core. -/
theorem hostHasOnlyResetDuringRun : Obligations.HostHasOnlyResetDuringRun := by
  refine ⟨fun s n hp => ?_, fun s bytes codeLen memSize hm hl => ?_, fun s n hp => ?_⟩
  · have ht : ¬ s.terminal = true := by simp [State.terminal_eq_false_iff.2 hp]
    exact ⟨if_neg ht, if_neg ht⟩
  · exact ⟨_, hostBoot_of_legal hm hl, rfl, rfl, rfl, rfl, Memory.read_nil⟩
  · have ht := State.terminal_iff.2 hp
    exact ⟨if_pos ht, if_pos ht⟩

end Sys2Proof.Machine
end

section
/-! SUPPORT. The decode phase computes the Decoder (spec/40_decoder.md R63 to R69): the Decoder's answer as an end
state, and one induction over the Decoder's run. -/

namespace Sys2Proof

/-- The instructions a decoding appended, with success or before its fault. -/
def ProgramDecode.decoded : ProgramDecode → List Instr
  | .ok p => p
  | .truncatedStream _ p => p
  | .unknownOpcode _ _ p => p

end Sys2Proof

namespace Sys2Proof.Machine

/-- The state in which the decode phase ends if the Decoder answers `d`. -/
def State.afterDecode (s : State) : ProgramDecode → State
  | .ok p => { s with prog := p, cur := s.codeLen, phase := .execute }
  | .truncatedStream off p =>
    { s with prog := p, cur := off, phase := .fault, fkind := .truncatedStream, fval := 0 }
  | .unknownOpcode off a p =>
    { s with prog := p, cur := off, phase := .fault, fkind := .unknownOpcode, fval := a.toNat }

variable {s : State}

/-- An instruction decoded first plays no part in the end state, which names the program store and `CUR` itself. -/
theorem State.afterDecode_emit (s : State) (i : Instr) (d : ProgramDecode) :
    (s.emit i).afterDecode d = s.afterDecode d := by
  cases d <;> rfl

theorem State.liveBytes_emit {i : Instr} {rest : List Byte} (hd : decodeFirst s.liveBytes = .instr i rest) :
    (s.emit i).liveBytes = rest := by
  rw [(decodeFirst_length hd).1, State.liveBytes, State.liveBytes, List.drop_drop]
  rfl

/-- Where no byte is left the step begins the execute phase, and the Decoder has all it will append. -/
theorem step_of_liveBytes_nil (hp : s.phase = .decode) (hl : s.ConfigLegal) (hc : s.cur ≤ s.codeLen)
    (hnil : s.liveBytes = []) : step s = .next (s.afterDecode (.ok s.prog)) := by
  have hcur : s.cur = s.codeLen := by
    have hlen := hl.length_liveBytes
    rw [hnil, List.length_nil] at hlen
    omega
  rw [step_beginExecute hp hl hcur, State.beginExecute, State.afterDecode, ← hcur]

/-- By induction on the Decoder's bound: each instruction it reads is one step, and its last answer another. -/
theorem runFor_decodeFrom {n : Nat} (hp : s.phase = .decode) (hl : s.ConfigLegal) (hc : s.cur ≤ s.codeLen)
    (hn : s.liveBytes.length ≤ n) : ∃ k,
      (decodeFrom n s.liveBytes s.cur s.prog).decoded.length = s.progLen + k ∧
      runFor (k + 1) s = .next (s.afterDecode (decodeFrom n s.liveBytes s.cur s.prog)) := by
  induction n generalizing s with
  | zero =>
    have hnil := List.eq_nil_of_length_eq_zero (Nat.le_zero.1 hn)
    exact ⟨0, rfl, runFor_succ (step_of_liveBytes_nil hp hl hc hnil) 0⟩
  | succ n ih =>
    cases hd : decodeFirst s.liveBytes with
    | instr i rest =>
      obtain ⟨-, hlen⟩ := decodeFirst_length hd
      have hpos := i.lengthBytes_pos
      have hcur : (s.emit i).cur ≤ s.codeLen := by
        rw [hl.length_liveBytes] at hlen
        rw [State.emit_cur]
        omega
      have hrest := State.liveBytes_emit hd
      obtain ⟨k, hk, hrun⟩ := ih (s := s.emit i) hp hl hcur (by rw [hrest]; omega)
      rw [hrest, State.emit_cur, State.emit_prog, ← decodeFrom_of_instr hd] at hk hrun
      refine ⟨k + 1, ?_, ?_⟩
      · rw [hk, State.progLen, State.emit_prog, List.length_append, List.length_singleton, State.progLen]
        omega
      · rw [runFor_succ (step_emit hp hl hd), hrun, State.afterDecode_emit]
    | endOfBuffer =>
      have hnil := decodeFirst_eq_endOfBuffer.1 hd
      rw [hnil, decodeFrom_nil]
      exact ⟨0, rfl, runFor_succ (step_of_liveBytes_nil hp hl hc hnil) 0⟩
    | truncatedStream =>
      simp only [decodeFrom, hd]
      exact ⟨0, rfl, runFor_succ (step_decodeFault hp hl (.truncated hd)) 0⟩
    | unknownOpcode a =>
      simp only [decodeFrom, hd]
      exact ⟨0, rfl, runFor_succ (step_decodeFault hp hl (.unknown hd)) 0⟩

/-- The decode phase of a run, from its start to its end. -/
theorem runFor_decodeProgram (hp : s.phase = .decode) (hl : s.ConfigLegal) (hc : s.cur = 0) (hprog : s.prog = []) :
    runFor ((decodeProgram (s.code.take s.codeLen)).decoded.length + 1) s =
      .next (s.afterDecode (decodeProgram (s.code.take s.codeLen))) := by
  have hlive : s.liveBytes = s.code.take s.codeLen := by rw [State.liveBytes, hc, List.drop_zero]
  obtain ⟨k, hk, hrun⟩ := runFor_decodeFrom hp hl (by omega) le_rfl
  rw [hlive, hc, hprog] at hk hrun
  rw [State.progLen, hprog, List.length_nil, Nat.zero_add] at hk
  rw [decodeProgram, hk]
  exact hrun

/-- Settles O40: the end state of the decode phase, read off for each of the Decoder's three answers. -/
theorem decodePhaseComputesDecoder : Obligations.DecodePhaseComputesDecoder := by
  intro s hp hl hc hprog
  have hrun := runFor_decodeProgram hp hl hc hprog
  refine ⟨fun p hd => ?_, fun off p hd => ?_, fun off a p hd => ?_⟩ <;>
    · rw [hd] at hrun
      exact hrun

end Sys2Proof.Machine
end

section
/-! SUPPORT. The execute phase computes the Executor (spec/41_load_const.md R75 to R80): an instruction and the
Executor's clause for it agree, and then an induction over the entries left. -/

namespace Sys2Proof.Machine

/-- The Executor's answer from where `s` stands. -/
def State.refEnd (s : State) : RefEnd :=
  refExec s.memSize (s.prog.drop s.ip) s.ip s.stack.reverse s.mem.read

/-- The final state `t` holds what the Executor's answer says, a fault standing at a live entry. -/
def State.HoldsEnd (t : State) : RefEnd → Prop
  | .done st m => t.phase = .done ∧ t.ip = t.progLen ∧ t.stack = st.reverse ∧ t.mem.read = m
  | .fault k n v => t.phase = .fault ∧ t.fkind = k ∧ t.ip = n ∧ t.fval = v ∧ n < t.progLen

variable {s t : State}

/-! ### One instruction -/

theorem State.refEnd_of_entry {i : Instr} (hi : s.prog[s.ip]? = some i) :
    s.refEnd = refExec s.memSize (i :: s.prog.drop (s.ip + 1)) s.ip s.stack.reverse s.mem.read := by
  obtain ⟨hlt, rfl⟩ := List.getElem?_eq_some_iff.1 hi
  rw [State.refEnd, List.drop_eq_getElem_cons hlt]

theorem State.refEnd_of_end (hi : s.ip = s.progLen) : s.refEnd = .done s.stack.reverse s.mem.read := by
  rw [State.refEnd, hi, State.progLen, List.drop_length]
  rfl

theorem ExecFaultCause.refEnd_eq {i : Instr} {k : FaultKind} {info : Nat} (hi : s.prog[s.ip]? = some i)
    (h : ExecFaultCause s i k info) : s.refEnd = .fault k s.ip info := by
  rw [State.refEnd_of_entry hi]
  cases h with
  | le => rfl
  | loadUnderflow stack => simp [stack, refExec]
  | storeUnderflow stack =>
    match hs : s.stack with
    | [] => rfl
    | [_] => rfl
    | _ :: _ :: _ => simp [State.sp, hs] at stack
  | loadRange stack range | storeRange stack range => simp [stack, refExec, range.not_gt]

/-- An instruction that completes leaves the Executor's answer what it was: the rest of the program has yet to run. -/
theorem ExecCase.refEnd_eq_or_fault {i : Instr} (hi : s.prog[s.ip]? = some i) (h : ExecCase s i t) :
    t.refEnd = s.refEnd ∧ t.phase = s.phase ∧ t.ip = s.ip + 1 ∨
    ∃ k info, t = s.raise k info ∧ s.refEnd = .fault k s.ip info := by
  rw [State.refEnd_of_entry hi]
  cases h with
  | loadConst b => exact .inl ⟨by simp [State.refEnd, refExec], rfl, rfl⟩
  | readMem stack range => exact .inl ⟨by simp [State.refEnd, refExec, stack, range], rfl, rfl⟩
  | @writeMem xs a v stack range =>
    have hread : (s.mem.write a v).read = fun x => if x = a then v else s.mem.read x :=
      funext (Memory.read_write s.mem a v)
    have hrest : (s.storeCell a v).dropTwo.stack = xs := State.dropTwo_of_stack (s := s.storeCell a v) stack
    exact .inl ⟨by simp [State.refEnd, refExec, stack, range, hread, hrest, -State.dropTwo_stack], rfl, rfl⟩
  | fault cause => exact .inr ⟨_, _, rfl, State.refEnd_of_entry hi ▸ cause.refEnd_eq hi⟩

/-! ### The phase -/

/-- By induction on the number of entries left: an instruction that completes leaves one fewer. -/
theorem runFor_refEnd {k : Nat} (hp : s.phase = .execute) (hl : s.ConfigLegal) (hk : s.progLen = s.ip + k) :
    ∃ (n : Nat) (t : State), runFor (n + 1) s = .next t ∧ t.ip = s.ip + n ∧ t.progLen = s.progLen ∧
      t.HoldsEnd s.refEnd := by
  induction k generalizing s with
  | zero =>
    refine ⟨0, s.endRun, runFor_succ (step_endRun hp hl hk.symm) 0, rfl, rfl, ?_⟩
    rw [State.refEnd_of_end hk.symm]
    exact ⟨rfl, hk.symm, s.stack.reverse_reverse.symm, rfl⟩
  | succ k ih =>
    have hlt : s.ip < s.progLen := by omega
    have hi : s.prog[s.ip]? = some s.prog[s.ip] := List.getElem?_eq_getElem hlt
    obtain ⟨t, ht⟩ := exists_exec_next s.prog[s.ip] s
    have hstep : step s = .next t := (step_entry hp hl hi).trans ht
    rcases (exec_cases ht).refEnd_eq_or_fault hi with ⟨hend, hpt, hip⟩ | ⟨kind, info, rfl, hend⟩
    · obtain ⟨hcode, hcodeLen, -, -, hmemSize, -, hprog⟩ := (exec_cases ht).code_config_prog
      have hlen : t.progLen = s.progLen := congrArg List.length hprog
      have hlegal : t.ConfigLegal := by rwa [State.ConfigLegal, hmemSize, hcodeLen, hcode]
      obtain ⟨n, u, hrun, hipu, hlenu, hholds⟩ := ih (hpt.trans hp) hlegal (by omega)
      exact ⟨n + 1, u, (runFor_succ hstep _).trans hrun, by omega, hlenu.trans hlen, hend ▸ hholds⟩
    · refine ⟨0, _, runFor_succ hstep 0, rfl, rfl, ?_⟩
      rw [hend]
      exact ⟨rfl, rfl, rfl, rfl, hlt⟩

/-- Settles O41: the run to the Executor's answer, whose last `IP` says how many steps it took. -/
theorem executePhaseComputesExecutor : Obligations.ExecutePhaseComputesExecutor := by
  intro s hp hl hip
  obtain ⟨n, t, hrun, hipt, hlen, hholds⟩ := runFor_refEnd hp hl (Nat.add_sub_cancel' hip).symm
  refine ⟨fun st m hend => ?_, fun k index v hend => ?_⟩
  · obtain ⟨hpt, hall, hstack, hmem⟩ : t.HoldsEnd (.done st m) := hend ▸ hholds
    have hn : s.progLen - s.ip = n := by omega
    exact ⟨t, hn ▸ hrun, hpt, hall.trans hlen, hstack, hmem⟩
  · obtain ⟨hpt, hk, hindex, hv, hlt⟩ : t.HoldsEnd (.fault k index v) := hend ▸ hholds
    have hn : index - s.ip = n := by omega
    exact ⟨by omega, hlen ▸ hlt, t, hn ▸ hrun, hpt, hk, hindex, hv⟩

end Sys2Proof.Machine
end

section
/-! SUPPORT. The end of a whole run (spec/70_reset_and_hazards.md R109): both phases together, and that a run has one
end. -/

namespace Sys2Proof.Machine

variable {s t u : State}

theorem runFor_of_terminal (hs : s.terminal = true) {n : Nat} (h : runFor n s = .next t) : t = s := by
  cases n with
  | zero => exact (Host.Outcome.next.inj h).symm
  | succ n =>
    rcases State.terminal_iff.1 hs with hp | hp
    · simp [runFor, step_of_done hp] at h
    · simp [runFor, step_of_fault hp] at h

/-- No step is enabled in a terminal phase, so the longer of two runs to one is no longer than the other. -/
theorem runFor_terminal_unique {n m : Nat} (hn : runFor n s = .next t) (ht : t.terminal = true)
    (hm : runFor m s = .next u) (hu : u.terminal = true) : t = u := by
  rcases Nat.le_total n m with hle | hle
  · rw [← Nat.add_sub_cancel' hle, runFor_add hn] at hm
    exact (runFor_of_terminal ht hm).symm
  · rw [← Nat.add_sub_cancel' hle, runFor_add hm] at hn
    exact runFor_of_terminal hu hn

/-- The buffer decodes and its program executes without fault, from an empty stack and a zero memory. -/
def State.Succeeds (s : State) : Prop :=
  ∃ (p : List Instr) (st : List Nat) (m : Nat → Nat),
    decodeProgram (s.code.take s.codeLen) = .ok p ∧ refExec s.memSize p 0 [] (fun _ => 0) = .done st m

/-- After a reset the run comes to an end, and the end is DONE exactly if Decoder and Executor both succeed. -/
theorem applyReset_run_end (hl : s.applyReset.ConfigLegal) :
    ∃ (n : Nat) (t : State), runFor n s.applyReset = .next t ∧ t.terminal = true ∧
      (t.phase = .done ↔ s.applyReset.Succeeds) := by
  have hdecode := runFor_decodeProgram (s := s.applyReset) rfl hl rfl rfl
  cases hd : decodeProgram (s.applyReset.code.take s.applyReset.codeLen) with
  | truncatedStream off p | unknownOpcode off a p =>
    rw [hd] at hdecode
    exact ⟨_, _, hdecode, rfl, nofun, fun ⟨_, _, _, hok, _⟩ => nomatch hd.symm.trans hok⟩
  | ok p =>
    rw [hd] at hdecode
    obtain ⟨n, t, hexec, -, -, hholds⟩ :=
      runFor_refEnd (s := s.applyReset.afterDecode (.ok p)) rfl hl (Nat.zero_add _).symm
    have hend : (s.applyReset.afterDecode (.ok p)).refEnd = refExec s.applyReset.memSize p 0 [] (fun _ => 0) := rfl
    refine ⟨_, t, (runFor_add hdecode _).trans hexec, ?_⟩
    rw [hend] at hholds
    cases he : refExec s.applyReset.memSize p 0 [] (fun _ => 0) with
    | done st m =>
      obtain ⟨hpt, -⟩ := he ▸ hholds
      exact ⟨State.terminal_iff.2 (.inl hpt), fun _ => ⟨p, st, m, hd, he⟩, fun _ => hpt⟩
    | fault k index v =>
      obtain ⟨hpt, -⟩ := he ▸ hholds
      refine ⟨State.terminal_iff.2 (.inr hpt), fun hdone => by simp [hpt] at hdone, ?_⟩
      rintro ⟨q, st, m, hok, hdone⟩
      cases hd.symm.trans hok
      cases he.symm.trans hdone

/-- Settles O42: the run's one end, after a reset; of a reachable end the invariant gives the rest. -/
theorem successMeansDecodedAndExecuted : Obligations.SuccessMeansDecodedAndExecuted := by
  refine ⟨fun bytes codeLen memSize before s hb => ?_, fun s h hp => ?_⟩
  · have hinv := hostBoot_inv hb
    obtain ⟨-, -, rfl⟩ := hostBoot_next hb
    obtain ⟨n, t, hrun, ht, hdone⟩ := applyReset_run_end ⟨hinv.memSizePos, hinv.codeLoaded⟩
    constructor
    · rintro ⟨k, u, hrun', hu⟩
      have hut := runFor_terminal_unique hrun' (State.terminal_iff.2 (.inl hu)) hrun ht
      exact hdone.1 (hut ▸ hu)
    · exact fun hs => ⟨n, t, hrun, hdone.2 hs⟩
  · rw [← h.inv.decodedAll (.inr hp)]
    exact ⟨h.inv.decodeProgram_consumed, h.inv.executedAll hp⟩

end Sys2Proof.Machine
end
